-- ==== Sys2Proof/Word.lean ====
section
/-! DEFINITION. The word types of the core: bytes and addresses (00_scope.md R6, R8). -/

namespace Sys2Proof

/-- An 8-bit value: a register, a status byte or a byte of memory (R6). -/
abbrev Byte := BitVec 8

/-- A 16-bit value: the program counter or an address (R6). -/
abbrev Addr := BitVec 16

end Sys2Proof
end

