-- ==== Sys2Proof/Config.lean ====
section
/-! DEFINITION. What is fixed for this hardware (00_scope.md R6, R7), and the one parameter the spec leaves OPEN.
A constant here is configuration, never state (10_state.md R41). -/

namespace Sys2Proof

/-- Where the high byte of a zero-page pointer at 0xFF lies (20_memory.md R63): `zeroPage` reads it at 0x0000,
`linear` at 0x0100. -/
inductive ZpPtrWrap where
  | zeroPage
  | linear
  deriving DecidableEq, Repr, Inhabited

/-- What an unlisted opcode means (45_flags_halt_unknown.md R246). -/
inductive UnlistedPolicy where
  | nop
  | refuse
  deriving DecidableEq, Repr

/-- `MEM_SIZE`, the number of bytes of M (20_memory.md R51, decision D4, conflict C1; log entry 2):
the addresses 0x0000 to 0xFFFE have a byte and 0xFFFF has none. -/
def Config.memSize : Nat := 0xFFFF

/-- `ZP_PTR_WRAP`, OPEN for this hardware (20_memory.md R63, decision D5; log entry 3).
It has no body: no proof can learn which of the two it is. -/
opaque Config.zpPtrWrap : ZpPtrWrap

/-- `UNLISTED_POLICY`: this hardware's value is `nop` (R246, decision D9; log entry 4). -/
def Config.unlistedPolicy : UnlistedPolicy := .nop

/-- `MAX_STEPS`: none for this hardware (30_encoding.md R102, decision D11; log entry 12). -/
def Config.maxSteps : Option Nat := none

/-- Where `load` copies a program (R6, R296). -/
def Config.loadBase : Addr := 0x8000

/-- The address of the reset vector's low byte (R6, R57, R291). -/
def Config.resetVector : Addr := 0xFFFC

end Sys2Proof
end

