-- ==== Sys2Proof/Mode.lean ====
section
/-! DEFINITION. The names the opcode table is made of: addressing modes, operation kinds and the descriptor
(30_encoding.md R91, R93, R108; 00_scope.md R14). -/

namespace Sys2Proof

/-- The addressing modes (the enumeration of R108). `indirect` is in the enumeration, but no descriptor carries it. -/
inductive Mode where
  | accumulator
  | immediate
  | zeroPage
  | zeroPageX
  | zeroPageY
  | absolute
  | absoluteX
  | absoluteY
  | indirect
  | indirectX
  | indirectY
  | implied
  | relative
  | noneAddressing
  deriving DecidableEq, Repr

/-- The operation kinds: one executor each, and the NONE sentinel (R2, R14). -/
inductive Kind where
  | lda | ldx | ldy | sta | tax | tay
  | and | eor | asl
  | inx | iny | dex | dey | inc | dec
  | cmp | cpx | cpy | bit
  | bcc | bcs | beq | bne | bmi | bpl | bvc | bvs
  | clc | cld | cli | clv
  | brk
  | noneOp
  deriving DecidableEq, Repr

/-- What the address resolver answers: a 16-bit address, or the sentinel that means the accumulator
(20_memory.md R58, R67). -/
inductive Target where
  | addr (a : Addr)
  | acc
  deriving DecidableEq, Repr

/-- An opcode descriptor (R93). `cycles` is metadata no rule reads (R107); NONE has none. -/
structure Descriptor where
  code : Byte
  mnemonic : String
  kind : Kind
  len : Nat
  cycles : Option Nat
  mode : Mode
  deriving DecidableEq, Repr

end Sys2Proof
end

