-- ==== Sys2Proof/Syntax.lean ====
section
/-! DEFINITION. The instructions: one constructor for each mnemonic of spec/opcode_table.json; the rows of one mnemonic
differ only in the addressing mode, which the constructor carries (log entry 1). -/

namespace Sys2Proof

/-- An instruction as the decoder reads it from the opcode byte: the operation and its addressing mode (R90).
The operand bytes are not part of it: the resolver and the branches read them from memory at PC
(20_memory.md R58, 44_branches.md R220). -/
inductive Instr where
  /-- LDA, load accumulator (R130). -/
  | lda (m : Mode)
  /-- LDX, load X (R131). -/
  | ldx (m : Mode)
  /-- LDY, load Y (R132). -/
  | ldy (m : Mode)
  /-- STA, store accumulator (R133). -/
  | sta (m : Mode)
  /-- TAX, transfer A to X (R134). -/
  | tax
  /-- TAY, transfer A to Y (R135). -/
  | tay
  /-- AND, bitwise AND with the accumulator (R160). -/
  | and (m : Mode)
  /-- EOR, bitwise exclusive OR with the accumulator (R161). -/
  | eor (m : Mode)
  /-- ASL, arithmetic shift left (R162). -/
  | asl (m : Mode)
  /-- INX, increment X (R180). -/
  | inx
  /-- INY, increment Y (R181). -/
  | iny
  /-- DEX, decrement X (R182). -/
  | dex
  /-- DEY, decrement Y (R183). -/
  | dey
  /-- INC, increment memory (R184). -/
  | inc (m : Mode)
  /-- DEC, decrement memory (R185). -/
  | dec (m : Mode)
  /-- CMP, compare accumulator (R201). -/
  | cmp (m : Mode)
  /-- CPX, compare X (R202). -/
  | cpx (m : Mode)
  /-- CPY, compare Y (R203). -/
  | cpy (m : Mode)
  /-- BIT, bit test (R204). -/
  | bit (m : Mode)
  /-- BCC, branch if carry clear (R221). -/
  | bcc
  /-- BCS, branch if carry set (R222). -/
  | bcs
  /-- BEQ, branch if zero set (R223). -/
  | beq
  /-- BNE, branch if zero clear (R224). -/
  | bne
  /-- BMI, branch if negative set (R225). -/
  | bmi
  /-- BPL, branch if negative clear (R226). -/
  | bpl
  /-- BVC, branch if overflow clear (R227). -/
  | bvc
  /-- BVS, branch if overflow set (R228). -/
  | bvs
  /-- CLC, clear carry (R240). -/
  | clc
  /-- CLD, clear decimal (R241). -/
  | cld
  /-- CLI, clear interrupt-disable (R242). -/
  | cli
  /-- CLV, clear overflow (R243). -/
  | clv
  /-- BRK, halt (R244). -/
  | brk
  /-- NONE, the unknown-opcode sentinel, with the opcode byte it was decoded from (R245): 167 rows of the table. -/
  | noneOp (op : Byte)
  deriving DecidableEq, Repr

/-- The operation kind of an instruction (R93). -/
def Instr.kind : Instr → Kind
  | .lda _ => .lda
  | .ldx _ => .ldx
  | .ldy _ => .ldy
  | .sta _ => .sta
  | .tax => .tax
  | .tay => .tay
  | .and _ => .and
  | .eor _ => .eor
  | .asl _ => .asl
  | .inx => .inx
  | .iny => .iny
  | .dex => .dex
  | .dey => .dey
  | .inc _ => .inc
  | .dec _ => .dec
  | .cmp _ => .cmp
  | .cpx _ => .cpx
  | .cpy _ => .cpy
  | .bit _ => .bit
  | .bcc => .bcc
  | .bcs => .bcs
  | .beq => .beq
  | .bne => .bne
  | .bmi => .bmi
  | .bpl => .bpl
  | .bvc => .bvc
  | .bvs => .bvs
  | .clc => .clc
  | .cld => .cld
  | .cli => .cli
  | .clv => .clv
  | .brk => .brk
  | .noneOp _ => .noneOp

/-- The addressing mode an instruction's descriptor carries (R108). -/
def Instr.mode : Instr → Mode
  | .lda m => m
  | .ldx m => m
  | .ldy m => m
  | .sta m => m
  | .and m => m
  | .eor m => m
  | .asl m => m
  | .inc m => m
  | .dec m => m
  | .cmp m => m
  | .cpx m => m
  | .cpy m => m
  | .bit m => m
  | .tax => .implied
  | .tay => .implied
  | .inx => .implied
  | .iny => .implied
  | .dex => .implied
  | .dey => .implied
  | .clc => .implied
  | .cld => .implied
  | .cli => .implied
  | .clv => .implied
  | .brk => .implied
  | .bcc => .relative
  | .bcs => .relative
  | .beq => .relative
  | .bne => .relative
  | .bmi => .relative
  | .bpl => .relative
  | .bvc => .relative
  | .bvs => .relative
  | .noneOp _ => .noneAddressing

end Sys2Proof
end

