-- ==== Sys2Proof/WellFormed.lean ====
section
/-! DEFINITION. Which instructions the opcode table holds: the addressing modes each mnemonic has
(the Operands line of R130 to R204) and the 167 opcodes of NONE (30_encoding.md R95). -/

namespace Sys2Proof

/-- The modes the address resolver answers (20_memory.md R59 to R67, 30_encoding.md R109). -/
def Mode.resolvable : Mode → Bool
  | .accumulator | .immediate | .zeroPage | .zeroPageX | .zeroPageY => true
  | .absolute | .absoluteX | .absoluteY | .indirectX | .indirectY => true
  | .indirect | .implied | .relative | .noneAddressing => false

/-- The eight modes of LDA, AND, EOR and CMP (R130, R160, R161, R201). -/
def accModes : List Mode :=
  [.immediate, .zeroPage, .zeroPageX, .absolute, .absoluteX, .absoluteY, .indirectX, .indirectY]

/-- The modes of LDX (R131). -/
def ldxModes : List Mode := [.immediate, .zeroPage, .zeroPageY, .absolute, .absoluteY]

/-- The modes of LDY (R132). -/
def ldyModes : List Mode := [.immediate, .zeroPage, .zeroPageX, .absolute, .absoluteX]

/-- The modes of STA (R133). -/
def staModes : List Mode := [.zeroPage, .zeroPageX, .absolute, .absoluteX, .absoluteY, .indirectX, .indirectY]

/-- The modes of ASL (R162). -/
def aslModes : List Mode := [.accumulator, .zeroPage, .zeroPageX, .absolute, .absoluteX]

/-- The modes of INC and DEC (R184, R185). -/
def incModes : List Mode := [.zeroPage, .zeroPageX, .absolute, .absoluteX]

/-- The modes of CPX and CPY (R202, R203). -/
def cpxModes : List Mode := [.immediate, .zeroPage, .absolute]

/-- The modes of BIT (R204). -/
def bitModes : List Mode := [.zeroPage, .absolute]

/-- The NONE opcodes of row 0x of the grid of R95. -/
def noneRow0 : List Byte :=
  [0x01, 0x02, 0x03, 0x04, 0x05, 0x07, 0x08, 0x09, 0x0B, 0x0C, 0x0D, 0x0F]

/-- The NONE opcodes of row 1x of the grid of R95. -/
def noneRow1 : List Byte :=
  [0x11, 0x12, 0x13, 0x14, 0x15, 0x17, 0x19, 0x1A, 0x1B, 0x1C, 0x1D, 0x1F]

/-- The NONE opcodes of row 2x of the grid of R95. -/
def noneRow2 : List Byte :=
  [0x20, 0x22, 0x23, 0x26, 0x27, 0x28, 0x2A, 0x2B, 0x2E, 0x2F]

/-- The NONE opcodes of row 3x of the grid of R95. -/
def noneRow3 : List Byte :=
  [0x32, 0x33, 0x34, 0x36, 0x37, 0x38, 0x3A, 0x3B, 0x3C, 0x3E, 0x3F]

/-- The NONE opcodes of row 4x of the grid of R95. -/
def noneRow4 : List Byte :=
  [0x40, 0x42, 0x43, 0x44, 0x46, 0x47, 0x48, 0x4A, 0x4B, 0x4C, 0x4E, 0x4F]

/-- The NONE opcodes of row 5x of the grid of R95. -/
def noneRow5 : List Byte :=
  [0x52, 0x53, 0x54, 0x56, 0x57, 0x5A, 0x5B, 0x5C, 0x5E, 0x5F]

/-- The NONE opcodes of row 6x of the grid of R95. -/
def noneRow6 : List Byte :=
  [0x60, 0x61, 0x62, 0x63, 0x64, 0x65, 0x66, 0x67, 0x68, 0x69, 0x6A, 0x6B, 0x6C, 0x6D, 0x6E, 0x6F]

/-- The NONE opcodes of row 7x of the grid of R95. -/
def noneRow7 : List Byte :=
  [0x71, 0x72, 0x73, 0x74, 0x75, 0x76, 0x77, 0x78, 0x79, 0x7A, 0x7B, 0x7C, 0x7D, 0x7E, 0x7F]

/-- The NONE opcodes of row 8x of the grid of R95. -/
def noneRow8 : List Byte :=
  [0x80, 0x82, 0x83, 0x84, 0x86, 0x87, 0x89, 0x8A, 0x8B, 0x8C, 0x8E, 0x8F]

/-- The NONE opcodes of row 9x of the grid of R95. -/
def noneRow9 : List Byte :=
  [0x92, 0x93, 0x94, 0x96, 0x97, 0x98, 0x9A, 0x9B, 0x9C, 0x9E, 0x9F]

/-- The NONE opcodes of row Ax of the grid of R95. -/
def noneRowA : List Byte :=
  [0xA3, 0xA7, 0xAB, 0xAF]

/-- The NONE opcodes of row Bx of the grid of R95. -/
def noneRowB : List Byte :=
  [0xB2, 0xB3, 0xB7, 0xBA, 0xBB, 0xBF]

/-- The NONE opcodes of row Cx of the grid of R95. -/
def noneRowC : List Byte :=
  [0xC2, 0xC3, 0xC7, 0xCB, 0xCF]

/-- The NONE opcodes of row Dx of the grid of R95. -/
def noneRowD : List Byte :=
  [0xD2, 0xD3, 0xD4, 0xD7, 0xDA, 0xDB, 0xDC, 0xDF]

/-- The NONE opcodes of row Ex of the grid of R95. -/
def noneRowE : List Byte :=
  [0xE1, 0xE2, 0xE3, 0xE5, 0xE7, 0xE9, 0xEA, 0xEB, 0xED, 0xEF]

/-- The NONE opcodes of row Fx of the grid of R95. -/
def noneRowF : List Byte :=
  [0xF1, 0xF2, 0xF3, 0xF4, 0xF5, 0xF7, 0xF8, 0xF9, 0xFA, 0xFB, 0xFC, 0xFD, 0xFF]

/-- The 167 opcodes of the NONE sentinel, as R95 lists them. -/
def noneCodes : List Byte :=
  noneRow0 ++ noneRow1 ++ noneRow2 ++ noneRow3 ++ noneRow4 ++ noneRow5 ++ noneRow6 ++ noneRow7 ++
  noneRow8 ++ noneRow9 ++ noneRowA ++ noneRowB ++ noneRowC ++ noneRowD ++ noneRowE ++ noneRowF

/-- An instruction is well formed when some row of the opcode table holds it (R94, R95). -/
def Instr.wf : Instr → Bool
  | .lda m => accModes.contains m
  | .ldx m => ldxModes.contains m
  | .ldy m => ldyModes.contains m
  | .sta m => staModes.contains m
  | .and m => accModes.contains m
  | .eor m => accModes.contains m
  | .asl m => aslModes.contains m
  | .inc m => incModes.contains m
  | .dec m => incModes.contains m
  | .cmp m => accModes.contains m
  | .cpx m => cpxModes.contains m
  | .cpy m => cpxModes.contains m
  | .bit m => bitModes.contains m
  | .noneOp op => noneCodes.contains op
  | .tax => true
  | .tay => true
  | .inx => true
  | .iny => true
  | .dex => true
  | .dey => true
  | .bcc => true
  | .bcs => true
  | .beq => true
  | .bne => true
  | .bmi => true
  | .bpl => true
  | .bvc => true
  | .bvs => true
  | .clc => true
  | .cld => true
  | .cli => true
  | .clv => true
  | .brk => true

end Sys2Proof
end

