-- ==== Sys2Proof/Decode.lean ====
section
/-! DEFINITION. The opcode table, the decoder and the encoder (30_encoding.md R90 to R109).
The decoder's rows are the grid of R95 in its own order; the encoder's cases are the table of R94, mnemonic by mnemonic,
so that each checks the other. The opcode numbers and mode sets are the MOS 6502's (log entry 7). -/

namespace Sys2Proof

/-- The length in bytes of an instruction of each mode (R91; the lengths are log entry 7).
No descriptor carries `indirect`, and R91 gives it no length: the 3 here is never used (log entry 17). -/
def Mode.length : Mode → Nat
  | .implied => 1
  | .accumulator => 1
  | .immediate => 2
  | .zeroPage => 2
  | .zeroPageX => 2
  | .zeroPageY => 2
  | .absolute => 3
  | .absoluteX => 3
  | .absoluteY => 3
  | .indirect => 3
  | .indirectX => 2
  | .indirectY => 2
  | .relative => 2
  | .noneAddressing => 1

/-- The length of an instruction, opcode byte included (R93, R103). -/
def Instr.len (i : Instr) : Nat := i.mode.length

/-- Row 0x of the grid of R95. -/
def gridRow0 : List (Byte × Instr) :=
  [(0x00, .brk), (0x06, .asl .zeroPage), (0x0A, .asl .accumulator), (0x0E, .asl .absolute)]

/-- Row 1x of the grid of R95. -/
def gridRow1 : List (Byte × Instr) :=
  [(0x10, .bpl), (0x16, .asl .zeroPageX), (0x18, .clc), (0x1E, .asl .absoluteX)]

/-- Row 2x of the grid of R95. -/
def gridRow2 : List (Byte × Instr) :=
  [(0x21, .and .indirectX), (0x24, .bit .zeroPage), (0x25, .and .zeroPage), (0x29, .and .immediate),
   (0x2C, .bit .absolute), (0x2D, .and .absolute)]

/-- Row 3x of the grid of R95. -/
def gridRow3 : List (Byte × Instr) :=
  [(0x30, .bmi), (0x31, .and .indirectY), (0x35, .and .zeroPageX), (0x39, .and .absoluteY),
   (0x3D, .and .absoluteX)]

/-- Row 4x of the grid of R95. -/
def gridRow4 : List (Byte × Instr) :=
  [(0x41, .eor .indirectX), (0x45, .eor .zeroPage), (0x49, .eor .immediate), (0x4D, .eor .absolute)]

/-- Row 5x of the grid of R95. -/
def gridRow5 : List (Byte × Instr) :=
  [(0x50, .bvc), (0x51, .eor .indirectY), (0x55, .eor .zeroPageX), (0x58, .cli), (0x59, .eor .absoluteY),
   (0x5D, .eor .absoluteX)]

/-- Row 7x of the grid of R95. -/
def gridRow7 : List (Byte × Instr) :=
  [(0x70, .bvs)]

/-- Row 8x of the grid of R95. -/
def gridRow8 : List (Byte × Instr) :=
  [(0x81, .sta .indirectX), (0x85, .sta .zeroPage), (0x88, .dey), (0x8D, .sta .absolute)]

/-- Row 9x of the grid of R95. -/
def gridRow9 : List (Byte × Instr) :=
  [(0x90, .bcc), (0x91, .sta .indirectY), (0x95, .sta .zeroPageX), (0x99, .sta .absoluteY),
   (0x9D, .sta .absoluteX)]

/-- Row Ax of the grid of R95. -/
def gridRowA : List (Byte × Instr) :=
  [(0xA0, .ldy .immediate), (0xA1, .lda .indirectX), (0xA2, .ldx .immediate), (0xA4, .ldy .zeroPage),
   (0xA5, .lda .zeroPage), (0xA6, .ldx .zeroPage), (0xA8, .tay), (0xA9, .lda .immediate), (0xAA, .tax),
   (0xAC, .ldy .absolute), (0xAD, .lda .absolute), (0xAE, .ldx .absolute)]

/-- Row Bx of the grid of R95. -/
def gridRowB : List (Byte × Instr) :=
  [(0xB0, .bcs), (0xB1, .lda .indirectY), (0xB4, .ldy .zeroPageX), (0xB5, .lda .zeroPageX),
   (0xB6, .ldx .zeroPageY), (0xB8, .clv), (0xB9, .lda .absoluteY), (0xBC, .ldy .absoluteX),
   (0xBD, .lda .absoluteX), (0xBE, .ldx .absoluteY)]

/-- Row Cx of the grid of R95. -/
def gridRowC : List (Byte × Instr) :=
  [(0xC0, .cpy .immediate), (0xC1, .cmp .indirectX), (0xC4, .cpy .zeroPage), (0xC5, .cmp .zeroPage),
   (0xC6, .dec .zeroPage), (0xC8, .iny), (0xC9, .cmp .immediate), (0xCA, .dex), (0xCC, .cpy .absolute),
   (0xCD, .cmp .absolute), (0xCE, .dec .absolute)]

/-- Row Dx of the grid of R95. -/
def gridRowD : List (Byte × Instr) :=
  [(0xD0, .bne), (0xD1, .cmp .indirectY), (0xD5, .cmp .zeroPageX), (0xD6, .dec .zeroPageX), (0xD8, .cld),
   (0xD9, .cmp .absoluteY), (0xDD, .cmp .absoluteX), (0xDE, .dec .absoluteX)]

/-- Row Ex of the grid of R95. -/
def gridRowE : List (Byte × Instr) :=
  [(0xE0, .cpx .immediate), (0xE4, .cpx .zeroPage), (0xE6, .inc .zeroPage), (0xE8, .inx),
   (0xEC, .cpx .absolute), (0xEE, .inc .absolute)]

/-- Row Fx of the grid of R95. -/
def gridRowF : List (Byte × Instr) :=
  [(0xF0, .beq), (0xF6, .inc .zeroPageX), (0xFE, .inc .absoluteX)]

/-- The 89 mapped opcodes in the order of the grid of R95. -/
def opcodeGrid : List (Byte × Instr) :=
  gridRow0 ++ gridRow1 ++ gridRow2 ++ gridRow3 ++ gridRow4 ++ gridRow5 ++ gridRow7 ++ gridRow8 ++
  gridRow9 ++ gridRowA ++ gridRowB ++ gridRowC ++ gridRowD ++ gridRowE ++ gridRowF

/-- The first row of `rows` for the opcode `op`. -/
def lookupOpcode (rows : List (Byte × Instr)) (op : Byte) : Option Instr :=
  match rows with
  | [] => none
  | (c, i) :: rest => if c = op then some i else lookupOpcode rest op

/-- Decode of an opcode byte: total, every unmapped byte is the NONE sentinel (R95, R96, R104). -/
def decodeOpcode (op : Byte) : Instr :=
  match lookupOpcode opcodeGrid op with
  | some i => i
  | none => .noneOp op

/-- Why a list of bytes holds no whole instruction. -/
inductive DecodeError where
  /-- There is no opcode byte. -/
  | noOpcode
  /-- The opcode byte asks for `need` operand bytes and only `got` follow it. -/
  | truncated (op : Byte) (need got : Nat)
  deriving DecidableEq, Repr

/-- Decode of bytes: the opcode byte gives the length, and that many bytes are taken (R90, R103).
Answers the instruction, its operand bytes in memory order, and the bytes after it. -/
def decode (bytes : List Byte) : Except DecodeError (Instr × List Byte × List Byte) :=
  match bytes with
  | [] => .error .noOpcode
  | op :: rest =>
    let n := (decodeOpcode op).len - 1
    if rest.length < n then .error (.truncated op n rest.length)
    else .ok (decodeOpcode op, rest.take n, rest.drop n)

/-- The opcode byte of a well-formed instruction, row by row of R94; none for an instruction no row holds. -/
def opcode : Instr → Option Byte
  | .lda .immediate => some 0xA9
  | .lda .zeroPage => some 0xA5
  | .lda .zeroPageX => some 0xB5
  | .lda .absolute => some 0xAD
  | .lda .absoluteX => some 0xBD
  | .lda .absoluteY => some 0xB9
  | .lda .indirectX => some 0xA1
  | .lda .indirectY => some 0xB1
  | .ldx .immediate => some 0xA2
  | .ldx .zeroPage => some 0xA6
  | .ldx .zeroPageY => some 0xB6
  | .ldx .absolute => some 0xAE
  | .ldx .absoluteY => some 0xBE
  | .ldy .immediate => some 0xA0
  | .ldy .zeroPage => some 0xA4
  | .ldy .zeroPageX => some 0xB4
  | .ldy .absolute => some 0xAC
  | .ldy .absoluteX => some 0xBC
  | .sta .zeroPage => some 0x85
  | .sta .zeroPageX => some 0x95
  | .sta .absolute => some 0x8D
  | .sta .absoluteX => some 0x9D
  | .sta .absoluteY => some 0x99
  | .sta .indirectX => some 0x81
  | .sta .indirectY => some 0x91
  | .tax => some 0xAA
  | .tay => some 0xA8
  | .and .immediate => some 0x29
  | .and .zeroPage => some 0x25
  | .and .zeroPageX => some 0x35
  | .and .absolute => some 0x2D
  | .and .absoluteX => some 0x3D
  | .and .absoluteY => some 0x39
  | .and .indirectX => some 0x21
  | .and .indirectY => some 0x31
  | .eor .immediate => some 0x49
  | .eor .zeroPage => some 0x45
  | .eor .zeroPageX => some 0x55
  | .eor .absolute => some 0x4D
  | .eor .absoluteX => some 0x5D
  | .eor .absoluteY => some 0x59
  | .eor .indirectX => some 0x41
  | .eor .indirectY => some 0x51
  | .asl .accumulator => some 0x0A
  | .asl .zeroPage => some 0x06
  | .asl .zeroPageX => some 0x16
  | .asl .absolute => some 0x0E
  | .asl .absoluteX => some 0x1E
  | .inx => some 0xE8
  | .iny => some 0xC8
  | .dex => some 0xCA
  | .dey => some 0x88
  | .inc .zeroPage => some 0xE6
  | .inc .zeroPageX => some 0xF6
  | .inc .absolute => some 0xEE
  | .inc .absoluteX => some 0xFE
  | .dec .zeroPage => some 0xC6
  | .dec .zeroPageX => some 0xD6
  | .dec .absolute => some 0xCE
  | .dec .absoluteX => some 0xDE
  | .cmp .immediate => some 0xC9
  | .cmp .zeroPage => some 0xC5
  | .cmp .zeroPageX => some 0xD5
  | .cmp .absolute => some 0xCD
  | .cmp .absoluteX => some 0xDD
  | .cmp .absoluteY => some 0xD9
  | .cmp .indirectX => some 0xC1
  | .cmp .indirectY => some 0xD1
  | .cpx .immediate => some 0xE0
  | .cpx .zeroPage => some 0xE4
  | .cpx .absolute => some 0xEC
  | .cpy .immediate => some 0xC0
  | .cpy .zeroPage => some 0xC4
  | .cpy .absolute => some 0xCC
  | .bit .zeroPage => some 0x24
  | .bit .absolute => some 0x2C
  | .bcc => some 0x90
  | .bcs => some 0xB0
  | .beq => some 0xF0
  | .bne => some 0xD0
  | .bmi => some 0x30
  | .bpl => some 0x10
  | .bvc => some 0x50
  | .bvs => some 0x70
  | .clc => some 0x18
  | .cld => some 0xD8
  | .cli => some 0x58
  | .clv => some 0xB8
  | .brk => some 0x00
  | .noneOp op => if noneCodes.contains op then some op else none
  | .lda _ | .ldx _ | .ldy _ | .sta _ | .and _ | .eor _ | .asl _ => none
  | .inc _ | .dec _ | .cmp _ | .cpx _ | .cpy _ | .bit _ => none

/-- The bytes of an instruction with the operand bytes `operands`, as they stand in memory from the lowest address up
(R90, R91); none where no row holds the instruction or the operand bytes are not as many as its mode has. -/
def encode (i : Instr) (operands : List Byte) : Option (List Byte) :=
  match opcode i with
  | none => none
  | some op => if operands.length + 1 = i.len then some (op :: operands) else none

/-- The nominal cycle count of a row (R94, decision D17): metadata no rule reads (R107); NONE has none. -/
def Instr.cycles : Instr → Option Nat
  | .noneOp _ => none
  | .brk => some 7
  | .sta .absoluteX => some 5
  | .sta .absoluteY => some 5
  | .sta .indirectY => some 6
  | .asl m => modifyCycles m
  | .inc m => modifyCycles m
  | .dec m => modifyCycles m
  | i => readCycles i.mode
where
  /-- ASL, INC and DEC. -/
  modifyCycles : Mode → Option Nat
    | .accumulator => some 2
    | .zeroPage => some 5
    | .zeroPageX => some 6
    | .absolute => some 6
    | .absoluteX => some 7
    | _ => none
  /-- Every other row. -/
  readCycles : Mode → Option Nat
    | .immediate => some 2
    | .zeroPage => some 3
    | .zeroPageX => some 4
    | .zeroPageY => some 4
    | .absolute => some 4
    | .absoluteX => some 4
    | .absoluteY => some 4
    | .indirectX => some 6
    | .indirectY => some 5
    | .implied => some 2
    | .relative => some 2
    | _ => none

/-- The mnemonic of an operation kind, "for diagnostics only" (R93), as R94 and R245 spell it. -/
def Kind.mnemonic : Kind → String
  | .lda => "LDA"
  | .ldx => "LDX"
  | .ldy => "LDY"
  | .sta => "STA"
  | .tax => "TAX"
  | .tay => "TAY"
  | .and => "AND"
  | .eor => "EOR"
  | .asl => "ASL"
  | .inx => "INX"
  | .iny => "INY"
  | .dex => "DEX"
  | .dey => "DEY"
  | .inc => "INC"
  | .dec => "DEC"
  | .cmp => "CMP"
  | .cpx => "CPX"
  | .cpy => "CPY"
  | .bit => "BIT"
  | .bcc => "BCC"
  | .bcs => "BCS"
  | .beq => "BEQ"
  | .bne => "BNE"
  | .bmi => "BMI"
  | .bpl => "BPL"
  | .bvc => "BVC"
  | .bvs => "BVS"
  | .clc => "CLC"
  | .cld => "CLD"
  | .cli => "CLI"
  | .clv => "CLV"
  | .brk => "BRK"
  | .noneOp => "NONE"

/-- The opcode table: the descriptor of each of the 256 opcode bytes (R93). -/
def opcodeTable (op : Byte) : Descriptor :=
  let i := decodeOpcode op
  { code := op, mnemonic := i.kind.mnemonic, kind := i.kind, len := i.len, cycles := i.cycles, mode := i.mode }

/-- Byte `k` of an instruction whose bits are `w`, of which the table gives `nbits` (bit 0 is the least significant bit
of the opcode byte; every bit above `nbits` is 0). -/
def tableByte (nbits w k : Nat) : Byte := BitVec.ofNat 8 ((w % 2 ^ nbits) >>> (8 * k))

/-- The bytes of a table word, up to the longest instruction: three (R90). -/
def tableBytes (nbits w : Nat) : List Byte := [tableByte nbits w 0, tableByte nbits w 1, tableByte nbits w 2]

/-- What the decoder reads from a word numbered as spec/opcode_table.json numbers it. -/
def decodeTableWord (nbits w : Nat) : Option Instr :=
  match decode (tableBytes nbits w) with
  | .ok (i, _, _) => some i
  | .error _ => none

end Sys2Proof
end

