-- ==== Sys2Proof/Machine/State.lean ====
section
/-! DEFINITION. The machine's state (10_state.md R20 to R40), the fatal faults (60_exceptions.md R265) and the refusals. -/

namespace Sys2Proof.Machine

/-- The closed list of fatal faults with the information each records (60_exceptions.md R265).
A meaning answers one; the run loop turns it into the state of R269 (log entry 8). -/
inductive Fault where
  /-- Raised by the address resolver for a mode it has no rule for (R266), and by an executor other than ASL's that is
  given the accumulator sentinel (log entry 17). Safe: no row of the opcode table reaches it (R109). -/
  | usageError (mode : Mode) (kind : Kind)
  /-- Raised by every access to an address at or above MEM_SIZE (R267), with the address of the instruction's opcode.
  Safe: the core stops where the source gives the address no byte (log entry 2). -/
  | memoryBounds (addr ia : Addr)
  /-- Raised by the host operation `load` for a program of `len` bytes that does not fit (R268). Safe: nothing is copied. -/
  | loadCapacity (len : Nat)
  deriving DecidableEq, Repr

/-- Why a step or a host operation gives no next state. -/
inductive Refusal where
  /-- Raised by an arm of `exec` whose instruction has no meaning yet; no arm is left so. Safe. -/
  | notModelled (mnemonic : String)
  /-- Raised by NONE under the policy `refuse` (45_flags_halt_unknown.md R246), which is not this hardware's. Safe. -/
  | unlistedOpcode (op : Byte)
  /-- Raised by a host operation in a run state that R295 does not allow it in. Safe. -/
  | hostNotAllowed
  /-- Raised by a host access to an address that names no byte of M (R295, R51; log entry 14). Safe. -/
  | noSuchByte (addr : Addr)
  deriving DecidableEq, Repr

/-- The run state RS (R36). -/
inductive RunState where
  /-- The core is not executing; entered by `new` and `reset`. -/
  | idle
  /-- The run loop is stepping instructions. -/
  | running
  /-- The run loop stopped because BRK executed. -/
  | halted
  /-- A fatal fault occurred; absorbing. -/
  | faulted
  /-- The optional step bound was reached. -/
  | bounded
  deriving DecidableEq, Repr

/-- The memory M (R33): the (address, byte) pairs of the bytes that are not 0x00, addresses strictly rising.
An address that is not listed reads as 0x00, the value `new` gives every byte (R40; log entry 19). -/
abbrev Memory := List Host.Cell

/-- The whole state of the core (R20). -/
structure State where
  /-- A, the accumulator (R21). -/
  a : Byte
  /-- X, an index register (R22). -/
  x : Byte
  /-- Y, an index register (R23). -/
  y : Byte
  /-- PC (R25): the address of the next opcode between instructions, `ia + 1` during one. -/
  pc : Addr
  /-- P, the status register (R26, R27). -/
  p : Byte
  /-- M (R33). -/
  mem : Memory
  /-- RS (R36). -/
  rs : RunState
  /-- The step counter: the instructions executed since the current run began. It exists only when MAX_STEPS is not none
  (R38), so it is none throughout on this hardware (log entry 12). -/
  steps : Option Nat
  /-- The fault record (R39). -/
  fault : Option Fault
  deriving DecidableEq, Repr

/-- The state `new` creates under a value of MAX_STEPS (R290, the `new` column of R40). P = 0x24: I and bit 5 set, every
other bit clear; the step counter is 0 where it exists (R38). -/
def State.newWith (maxSteps : Option Nat) : State where
  a := 0x00
  x := 0x00
  y := 0x00
  pc := 0x0000
  p := 0x24
  mem := []
  rs := .idle
  steps := maxSteps.map fun _ => 0
  fault := none

/-- The state `new` creates on this hardware. -/
def State.new : State := State.newWith Config.maxSteps

/-- The machine right after reset (the `reset` column of R40): `reset` of what `new` creates.
The reset vector's two bytes are 0x00 in the memory `new` leaves, so PC is 0x0000 (R291; log entry 11). -/
def State.reset : State where
  a := 0x00
  x := 0x00
  y := 0x00
  pc := 0x0000
  p := 0x24
  mem := []
  rs := .idle
  steps := Config.maxSteps.map fun _ => 0
  fault := none

end Sys2Proof.Machine
end

