-- ==== Sys2Proof/Machine/Ops.lean ====
section
/-! DEFINITION. The named operations over memory and registers, fetch, the PC advance, and taking a fatal fault. -/

namespace Sys2Proof.Machine

/-! ### Memory as data -/

/-- What an address that no entry lists reads as: 0x00, the reset contents of every byte (10_state.md R40). -/
def unlistedByte : Byte := 0x00#8

/-- The byte M holds at an address. -/
def Memory.read (m : Memory) (k : Nat) : Byte :=
  match m with
  | [] => unlistedByte
  | (a, v) :: rest => if a = k then v else Memory.read rest k

/-- An entry is listed only when it is not what an unlisted address reads as. -/
def Memory.consEntry (k : Nat) (v : Byte) (m : Memory) : Memory :=
  if v = unlistedByte then m else (k, v) :: m

/-- M with the byte at an address replaced; the canonical form is kept. -/
def Memory.write (m : Memory) (k : Nat) (v : Byte) : Memory :=
  match m with
  | [] => Memory.consEntry k v []
  | (a, w) :: rest =>
    if k < a then Memory.consEntry k v ((a, w) :: rest)
    else if k = a then Memory.consEntry k v rest
    else (a, w) :: Memory.write rest k v

/-- Every entry lies at or above `lo`, addresses rise strictly, each is below MEM_SIZE and none reads as unlisted. -/
def Memory.wfFrom (m : Memory) (lo : Nat) : Bool :=
  match m with
  | [] => true
  | (a, v) :: rest =>
    decide (lo ≤ a) && decide (a < Config.memSize) && decide (v ≠ unlistedByte) && Memory.wfFrom rest (a + 1)

/-- The canonical form of M: equal memories are equal lists, and only the MEM_SIZE bytes of R51 are listed. -/
def Memory.wf (m : Memory) : Bool := Memory.wfFrom m 0

/-! ### Registers -/

/-- `A <- v`. -/
def State.setA (s : State) (v : Byte) : State := { s with a := v }

/-- `X <- v`. -/
def State.setX (s : State) (v : Byte) : State := { s with x := v }

/-- `Y <- v`. -/
def State.setY (s : State) (v : Byte) : State := { s with y := v }

/-- `PC <- v`. -/
def State.setPC (s : State) (v : Addr) : State := { s with pc := v }

/-- `P <- v`. -/
def State.setP (s : State) (v : Byte) : State := { s with p := v }

/-- M replaced. -/
def State.setMem (s : State) (m : Memory) : State := { s with mem := m }

/-- `RS <- r`. -/
def State.setRS (s : State) (r : RunState) : State := { s with rs := r }

/-- The step counter replaced. -/
def State.setSteps (s : State) (n : Option Nat) : State := { s with steps := n }

/-- `steps <- steps + 1`, where the counter exists (10_state.md R38). -/
def State.countStep (s : State) : State := s.setSteps (s.steps.map (· + 1))

/-- `steps <- 0`, where the counter exists (R38). -/
def State.zeroSteps (s : State) : State := s.setSteps (s.steps.map fun _ => 0)

/-- The fault record written. -/
def State.setFault (s : State) (f : Option Fault) : State := { s with fault := f }

/-! ### Widths and byte order -/

/-- `zext_16` (00_scope.md R10). -/
def zext16 (v : Byte) : Addr := v.setWidth 16

/-- `sext_16` (00_scope.md R10): bit 7 is copied into bits 15 to 8. -/
def sext16 (v : Byte) : Addr := v.signExtend 16

/-- `hi : lo`, the 16-bit value hi * 256 + lo (00_scope.md R8). -/
def word16 (hi lo : Byte) : Addr := hi ++ lo

/-! ### The memory primitives -/

/-- `ia`, the address of the opcode byte of the instruction being executed: PC holds `ia +16 1` then (R13). -/
def State.ia (s : State) : Addr := s.pc - 1#16

/-- Whether an address has a byte: it is below MEM_SIZE (20_memory.md R51, R52). -/
def inBounds (a : Addr) : Bool := decide (a.toNat < Config.memSize)

/-- `MemRead(a, 1)` (R11), by the instruction whose opcode is at `ia`. -/
def memReadBy (s : State) (ia a : Addr) : Except Fault Byte :=
  if inBounds a then .ok (s.mem.read a.toNat) else .error (.memoryBounds a ia)

/-- `MemRead(a, 1)` during the execution of an instruction (R11). -/
def memRead (s : State) (a : Addr) : Except Fault Byte := memReadBy s s.ia a

/-- `MemRead(a, 2)` (R11, R53): the low byte at `a`, read first (R69), the high byte at `a +16 1`. -/
def memRead16 (s : State) (a : Addr) : Except Fault Addr :=
  match memRead s a with
  | .error f => .error f
  | .ok lo =>
    match memRead s (a + 1#16) with
    | .error f => .error f
    | .ok hi => .ok (word16 hi lo)

/-- `MemWrite(a, 1, v)` (R11). -/
def memWrite (s : State) (a : Addr) (v : Byte) : Except Fault State :=
  if inBounds a then .ok (s.setMem (s.mem.write a.toNat v)) else .error (.memoryBounds a s.ia)

/-! ### The run loop's own work -/

/-- Fetch: the opcode byte at PC (30_encoding.md R97). -/
def fetchOpcode (s : State) : Except Fault Byte := memReadBy s s.pc s.pc

/-- PC past the opcode byte, as it stands when the executor runs (R97; log entry 5). -/
def State.enter (s : State) : State := s.setPC (s.pc + 1#16)

/-- The PC advance after an executor that answers `next`: `PC <- PC +16 (len - 1)` (R99). -/
def State.advance (s : State) (m : Mode) : State := s.setPC (s.pc + BitVec.ofNat 16 (m.length - 1))

/-- Taking a fatal fault (60_exceptions.md R269, R12): every register, flag, PC and byte of memory as before the step,
RS becomes FAULTED and the record is written. -/
def State.takeFault (s : State) (f : Fault) : State := (s.setRS .faulted).setFault (some f)

/-- Whether the step bound is reached (30_encoding.md R102). -/
def boundReached (maxSteps : Option Nat) (s : State) : Bool :=
  match maxSteps with
  | none => false
  | some n => decide (s.steps = some n)

/-- The end of a step that started at `s`: an executor's next state with the step counted (R102), or the fault taken from
`s` so that no write of the step is kept (R100, R269). There is no return from a fault (R270). -/
def finishStep (s : State) (o : Host.Outcome State Fault Refusal) : Host.Outcome State Fault Refusal :=
  match o with
  | .next t => .next t.countStep
  | .fault f => .next (s.takeFault f)
  | .refused r => .refused r

/-- Bytes placed from an address upwards, wrapping; an address that has no byte is passed over. -/
def placeBytes (m : Memory) (a : Addr) (bs : List Byte) : Memory :=
  match bs with
  | [] => m
  | b :: rest => placeBytes (if inBounds a then m.write a.toNat b else m) (a + 1#16) rest

/-- The `n` bytes of M from an address upwards, wrapping, as data. -/
def bytesAt (m : Memory) (a : Addr) (n : Nat) : List Byte :=
  match n with
  | 0 => []
  | k + 1 => m.read a.toNat :: bytesAt m (a + 1#16) k

end Sys2Proof.Machine
end

