-- ==== Sys2Proof/Machine/Flags.lean ====
section
/-! DEFINITION. The status register's flags and every flag computation (10_state.md R26 to R32). -/

namespace Sys2Proof.Machine

/-- The named bits of P (R27). `u` is bit 5, the reserved bit. -/
inductive Flag where
  | c | z | i | d | b | u | v | n
  deriving DecidableEq, Repr

/-- The bit position of each flag (R27, decision D3; log entry 6). -/
def Flag.pos : Flag → Nat
  | .c => 0
  | .z => 1
  | .i => 2
  | .d => 3
  | .b => 4
  | .u => 5
  | .v => 6
  | .n => 7

/-- The value of one flag in a status byte. -/
def getFlag (f : Flag) (p : Byte) : Bool := p.getLsbD f.pos

/-- A status byte with one flag written and every other bit kept (R28). -/
def putFlag (f : Flag) (on : Bool) (p : Byte) : Byte :=
  if on then p ||| BitVec.twoPow 8 f.pos else p &&& ~~~BitVec.twoPow 8 f.pos

/-- `setZN(v)` (R30). -/
def setZN (v p : Byte) : Byte := putFlag .n (v.getLsbD 7) (putFlag .z (v == 0x00#8) p)

/-- The flags of `Compare(r, v)` (43_compare_bit.md R200): C when no borrow is needed, Z and N of the difference. -/
def compareFlags (r v p : Byte) : Byte := setZN (r - v) (putFlag .c (v.ule r) p)

/-- The flags of BIT (R204, conflicts C2 and C8): Z of the AND, N and V from bits 7 and 6 of the operand. -/
def bitFlags (a v p : Byte) : Byte :=
  putFlag .v (v.getLsbD 6) (putFlag .n (v.getLsbD 7) (putFlag .z (a &&& v == 0x00#8) p))

/-- The result of ASL (41_logical_shift.md R162): one bit left, bit 0 becomes 0. -/
def shiftLeft (v : Byte) : Byte := v <<< 1

/-- The flags of ASL (R162, conflict C4): C from bit 7 of the original value, Z and N of the result. -/
def aslFlags (v p : Byte) : Byte := setZN (shiftLeft v) (putFlag .c (v.getLsbD 7) p)

/-- The value of a flag in the state. -/
def State.flag (s : State) (f : Flag) : Bool := getFlag f s.p

/-- Z and N written from a value, every other bit of P kept (R30). -/
def State.withZN (s : State) (v : Byte) : State := s.setP (setZN v s.p)

end Sys2Proof.Machine
end

