-- ==== Sys2Proof/Machine/Operands.lean ====
section
/-! DEFINITION. The address resolver, every operand form, and the shared shapes of the executors
(20_memory.md R58 to R69, 00_scope.md R12). -/

namespace Sys2Proof.Machine

/-- Where the high byte of a zero-page pointer at `p` lies (R63): at `zext_16(p +8 1)` under `zeroPage` and at
`zext_16(p) +16 1` under `linear`. The two agree for every `p` other than 0xFF, so only that case looks at the parameter. -/
def zpPtrHigh (w : ZpPtrWrap) (p : Byte) : Addr :=
  if p = 0xFF#8 then
    match w with
    | .zeroPage => 0x0000#16
    | .linear => 0x0100#16
  else zext16 p + 1#16

/-- `ReadZpPtr(p)` (R63): the low byte first, then the high byte. -/
def readZpPtr (w : ZpPtrWrap) (s : State) (p : Byte) : Except Fault Addr :=
  match memRead s (zext16 p) with
  | .error f => .error f
  | .ok lo =>
    match memRead s (zpPtrHigh w p) with
    | .error f => .error f
    | .ok hi => .ok (word16 hi lo)

/-- A one-byte operand read at PC, and the address a function of it gives. -/
def fromByte (s : State) (f : Byte → Except Fault Addr) : Except Fault Target :=
  match memRead s s.pc with
  | .error e => .error e
  | .ok b =>
    match f b with
    | .error e => .error e
    | .ok a => .ok (.addr a)

/-- A two-byte operand read at PC (R62), and the address a function of it gives. -/
def fromWord (s : State) (f : Addr → Addr) : Except Fault Target :=
  match memRead16 s s.pc with
  | .error e => .error e
  | .ok w => .ok (.addr (f w))

/-- A base address with an index added modulo 2^16. -/
def indexed (base : Except Fault Addr) (i : Byte) : Except Fault Addr :=
  match base with
  | .error e => .error e
  | .ok a => .ok (a + zext16 i)

/-- `resolve(mode)` (R58 to R68) under a value of ZP_PTR_WRAP, for the operation kind a usage error names.
PC is `ia +16 1` and is not moved; no state is written. -/
def resolveWith (w : ZpPtrWrap) (k : Kind) (m : Mode) (s : State) : Except Fault Target :=
  match m with
  | .immediate => .ok (.addr s.pc)
  | .zeroPage => fromByte s fun b => .ok (zext16 b)
  | .zeroPageX => fromByte s fun b => .ok (zext16 (b + s.x))
  | .zeroPageY => fromByte s fun b => .ok (zext16 (b + s.y))
  | .absolute => fromWord s fun a => a
  | .absoluteX => fromWord s fun a => a + zext16 s.x
  | .absoluteY => fromWord s fun a => a + zext16 s.y
  | .indirectX => fromByte s fun b => readZpPtr w s (b + s.x)
  | .indirectY => fromByte s fun b => indexed (readZpPtr w s b) s.y
  | .accumulator => .ok .acc
  | .indirect => .error (.usageError .indirect k)
  | .implied => .error (.usageError .implied k)
  | .relative => .error (.usageError .relative k)
  | .noneAddressing => .error (.usageError .noneAddressing k)

/-- `resolve(mode)` of this hardware, whose ZP_PTR_WRAP is OPEN. -/
def resolve (k : Kind) (m : Mode) (s : State) : Except Fault Target := resolveWith Config.zpPtrWrap k m s

/-- The address of a memory operand. An executor that has no accumulator form, given the accumulator sentinel, is in an
invalid addressing mode for its operation: a usage error (60_exceptions.md R266; log entry 17). -/
def resolveAddr (k : Kind) (m : Mode) (s : State) : Except Fault Addr :=
  match resolve k m s with
  | .error f => .error f
  | .ok .acc => .error (.usageError m k)
  | .ok (.addr a) => .ok a

/-- `MemRead(resolve(m), 1)`: the operand of an instruction that reads memory. -/
def readOperand (k : Kind) (m : Mode) (s : State) : Except Fault Byte :=
  match resolveAddr k m s with
  | .error f => .error f
  | .ok a => memRead s a

/-- An executor that reads its operand and changes registers and flags with it, then the PC advance (R99). -/
def onOperand (k : Kind) (m : Mode) (s : State) (f : Byte → State) : Host.Outcome State Fault Refusal :=
  match readOperand k m s with
  | .error e => .fault e
  | .ok v => .next ((f v).advance m)

/-- An executor that writes a byte to its operand's address, then the PC advance. -/
def storeOperand (k : Kind) (m : Mode) (s : State) (v : Byte) : Host.Outcome State Fault Refusal :=
  match resolveAddr k m s with
  | .error e => .fault e
  | .ok a =>
    match memWrite s a v with
    | .error e => .fault e
    | .ok t => .next (t.advance m)

/-- A read-modify-write executor: one read and one write at the same address (R69), the flags from the value read,
then the PC advance. -/
def modifyOperand (k : Kind) (m : Mode) (s : State) (f : Byte → Byte) (flags : Byte → Byte → Byte) :
    Host.Outcome State Fault Refusal :=
  match resolveAddr k m s with
  | .error e => .fault e
  | .ok a =>
    match memRead s a with
    | .error e => .fault e
    | .ok v =>
      match memWrite s a (f v) with
      | .error e => .fault e
      | .ok t => .next ((t.setP (flags v t.p)).advance m)

/-- An executor of an implied instruction: it changes registers and flags only. PC needs no further advance, the length
being 1 (R91, R99). -/
def onImplied (t : State) : Host.Outcome State Fault Refusal := .next (t.advance .implied)

/-- `Branch(cond)` (44_branches.md R220): the offset byte is read only when the condition holds; a taken branch's PC is
final (log entry 5). -/
def branch (cond : Bool) (s : State) : Host.Outcome State Fault Refusal :=
  if cond then
    match memRead s s.pc with
    | .error e => .fault e
    | .ok off => .next (s.setPC (s.pc + 1#16 + sext16 off))
  else .next (s.advance .relative)

end Sys2Proof.Machine
end

