-- ==== Sys2Proof/Machine/Branch.lean ====
section
/-! DEFINITION. Branch instructions (44_branches.md R220 to R228). -/

namespace Sys2Proof.Machine

/-- BCC (R221). -/
def execBcc (s : State) : Host.Outcome State Fault Refusal := branch (!s.flag .c) s

/-- BCS (R222). -/
def execBcs (s : State) : Host.Outcome State Fault Refusal := branch (s.flag .c) s

/-- BEQ (R223). -/
def execBeq (s : State) : Host.Outcome State Fault Refusal := branch (s.flag .z) s

/-- BNE (R224). -/
def execBne (s : State) : Host.Outcome State Fault Refusal := branch (!s.flag .z) s

/-- BMI (R225). -/
def execBmi (s : State) : Host.Outcome State Fault Refusal := branch (s.flag .n) s

/-- BPL (R226). -/
def execBpl (s : State) : Host.Outcome State Fault Refusal := branch (!s.flag .n) s

/-- BVC (R227). -/
def execBvc (s : State) : Host.Outcome State Fault Refusal := branch (!s.flag .v) s

/-- BVS (R228). -/
def execBvs (s : State) : Host.Outcome State Fault Refusal := branch (s.flag .v) s

end Sys2Proof.Machine
end

