-- ==== Sys2Proof/Machine/Compare.lean ====
section
/-! DEFINITION. Compare and bit-test instructions (43_compare_bit.md R200 to R204). -/

namespace Sys2Proof.Machine

/-- CMP (R201). -/
def execCmp (m : Mode) (s : State) : Host.Outcome State Fault Refusal :=
  onOperand .cmp m s fun v => s.setP (compareFlags s.a v s.p)

/-- CPX (R202). -/
def execCpx (m : Mode) (s : State) : Host.Outcome State Fault Refusal :=
  onOperand .cpx m s fun v => s.setP (compareFlags s.x v s.p)

/-- CPY (R203). -/
def execCpy (m : Mode) (s : State) : Host.Outcome State Fault Refusal :=
  onOperand .cpy m s fun v => s.setP (compareFlags s.y v s.p)

/-- BIT (R204). -/
def execBit (m : Mode) (s : State) : Host.Outcome State Fault Refusal :=
  onOperand .bit m s fun v => s.setP (bitFlags s.a v s.p)

end Sys2Proof.Machine
end

