-- ==== Sys2Proof/Machine/FlagHalt.lean ====
section
/-! DEFINITION. Flag-clear, halt and unknown-opcode instructions (45_flags_halt_unknown.md R240 to R246). -/

namespace Sys2Proof.Machine

/-- CLC (R240). -/
def execClc (s : State) : Host.Outcome State Fault Refusal := onImplied (s.setP (putFlag .c false s.p))

/-- CLD (R241). -/
def execCld (s : State) : Host.Outcome State Fault Refusal := onImplied (s.setP (putFlag .d false s.p))

/-- CLI (R242). -/
def execCli (s : State) : Host.Outcome State Fault Refusal := onImplied (s.setP (putFlag .i false s.p))

/-- CLV (R243). -/
def execClv (s : State) : Host.Outcome State Fault Refusal := onImplied (s.setP (putFlag .v false s.p))

/-- BRK (R244): B is set (log entry 13) and the run loop halts; PC stays `ia +16 1` (R99, log entry 5). -/
def execBrk (s : State) : Host.Outcome State Fault Refusal :=
  .next ((s.setP (putFlag .b true s.p)).setRS .halted)

/-- NONE under a policy (R246): a one-byte no-op (R245), or a refusal. -/
def unlisted (policy : UnlistedPolicy) (op : Byte) (s : State) : Host.Outcome State Fault Refusal :=
  match policy with
  | .nop => .next (s.advance .noneAddressing)
  | .refuse => .refused (.unlistedOpcode op)

/-- NONE (R245) under this hardware's policy. -/
def execNone (op : Byte) (s : State) : Host.Outcome State Fault Refusal := unlisted Config.unlistedPolicy op s

end Sys2Proof.Machine
end

