-- ==== Sys2Proof/Machine/IncDec.lean ====
section
/-! DEFINITION. Increment and decrement instructions (42_increment_decrement.md R180 to R185). -/

namespace Sys2Proof.Machine

/-- INX (R180). -/
def execInx (s : State) : Host.Outcome State Fault Refusal :=
  onImplied ((s.setX (s.x + 1#8)).withZN (s.x + 1#8))

/-- INY (R181). -/
def execIny (s : State) : Host.Outcome State Fault Refusal :=
  onImplied ((s.setY (s.y + 1#8)).withZN (s.y + 1#8))

/-- DEX (R182). -/
def execDex (s : State) : Host.Outcome State Fault Refusal :=
  onImplied ((s.setX (s.x - 1#8)).withZN (s.x - 1#8))

/-- DEY (R183). -/
def execDey (s : State) : Host.Outcome State Fault Refusal :=
  onImplied ((s.setY (s.y - 1#8)).withZN (s.y - 1#8))

/-- INC (R184). -/
def execInc (m : Mode) (s : State) : Host.Outcome State Fault Refusal :=
  modifyOperand .inc m s (fun v => v + 1#8) fun v p => setZN (v + 1#8) p

/-- DEC (R185). -/
def execDec (m : Mode) (s : State) : Host.Outcome State Fault Refusal :=
  modifyOperand .dec m s (fun v => v - 1#8) fun v p => setZN (v - 1#8) p

end Sys2Proof.Machine
end

