-- ==== Sys2Proof/Machine/LoadStore.lean ====
section
/-! DEFINITION. Load, store and transfer instructions (40_load_store_transfer.md R130 to R135). -/

namespace Sys2Proof.Machine

/-- LDA (R130). -/
def execLda (m : Mode) (s : State) : Host.Outcome State Fault Refusal :=
  onOperand .lda m s fun v => (s.setA v).withZN v

/-- LDX (R131). -/
def execLdx (m : Mode) (s : State) : Host.Outcome State Fault Refusal :=
  onOperand .ldx m s fun v => (s.setX v).withZN v

/-- LDY (R132). -/
def execLdy (m : Mode) (s : State) : Host.Outcome State Fault Refusal :=
  onOperand .ldy m s fun v => (s.setY v).withZN v

/-- STA (R133): no data read and no flag. -/
def execSta (m : Mode) (s : State) : Host.Outcome State Fault Refusal :=
  storeOperand .sta m s s.a

/-- TAX (R134). -/
def execTax (s : State) : Host.Outcome State Fault Refusal :=
  onImplied ((s.setX s.a).withZN s.a)

/-- TAY (R135). -/
def execTay (s : State) : Host.Outcome State Fault Refusal :=
  onImplied ((s.setY s.a).withZN s.a)

end Sys2Proof.Machine
end

