-- ==== Sys2Proof/Machine/Logical.lean ====
section
/-! DEFINITION. Logical and shift instructions (41_logical_shift.md R160 to R162). -/

namespace Sys2Proof.Machine

/-- AND (R160). -/
def execAnd (m : Mode) (s : State) : Host.Outcome State Fault Refusal :=
  onOperand .and m s fun v => (s.setA (s.a &&& v)).withZN (s.a &&& v)

/-- EOR (R161). -/
def execEor (m : Mode) (s : State) : Host.Outcome State Fault Refusal :=
  onOperand .eor m s fun v => (s.setA (s.a ^^^ v)).withZN (s.a ^^^ v)

/-- ASL (R162): on the accumulator where the resolver answers its sentinel, on memory otherwise. -/
def execAsl (m : Mode) (s : State) : Host.Outcome State Fault Refusal :=
  match resolve .asl m s with
  | .ok .acc => .next (((s.setA (shiftLeft s.a)).setP (aslFlags s.a s.p)).advance m)
  | .ok (.addr _) => modifyOperand .asl m s shiftLeft aslFlags
  | .error f => .fault f

end Sys2Proof.Machine
end

