-- ==== Sys2Proof/Machine/Step.lean ====
section
/-! DEFINITION. One step of the run loop (30_encoding.md R97 to R102), and the placing of a word where it fetches next. -/

namespace Sys2Proof.Machine

/-- Fetch, decode and execute one instruction (R97 to R100); a fatal fault is taken from the state before the step. -/
def stepInstr (s : State) : Host.Outcome State Fault Refusal :=
  match fetchOpcode s with
  | .error f => finishStep s (.fault f)
  | .ok op => finishStep s (exec (decodeOpcode op) s.enter)

/-- A step under a value of MAX_STEPS (R102). A core that is not RUNNING executes nothing and keeps its state until the
host acts (10_state.md R37, 60_exceptions.md R270, R273; log entry 9). -/
def stepWith (maxSteps : Option Nat) (s : State) : Host.Outcome State Fault Refusal :=
  match s.rs with
  | .running => if boundReached maxSteps s then .next (s.setRS .bounded) else stepInstr s
  | .idle => .next s
  | .halted => .next s
  | .faulted => .next s
  | .bounded => .next s

/-- A step of this hardware, whose MAX_STEPS is none. -/
def step (s : State) : Host.Outcome State Fault Refusal := stepWith Config.maxSteps s

/-- `s` with a table word stored at PC, where the next step fetches, and the core RUNNING so that the next step does fetch:
the bytes stand for the host's `load`, RUNNING for its `run` (log entry 10). Nothing else changes. -/
def State.withFetchWord (s : State) (nbits w : Nat) : State :=
  (s.setMem (placeBytes s.mem s.pc (tableBytes nbits w))).setRS .running

end Sys2Proof.Machine
end

