-- ==== Sys2Proof/Machine/Assembler.lean ====
section
/-! DEFINITION. The assembler forms (30_encoding.md R91, R105): how an instruction is written, and the offset byte of a
branch that is written as its target (log entry 20). -/

namespace Sys2Proof.Machine

/-- `rel8 = target - (ia + 2#16)` (R105), where it lies in -128 to 127. -/
def branchOffset (ia target : Addr) : Option Byte :=
  let d := target - (ia + 2#16)
  if sext16 (d.setWidth 8) = d then some (d.setWidth 8) else none

/-- The address a branch at `ia` with an offset byte goes to (R105, 44_branches.md R220). -/
def branchTarget (ia : Addr) (off : Byte) : Addr := ia + 2#16 + sext16 off

/-- One hexadecimal digit. -/
def hexDigit (n : Nat) : String :=
  match n with
  | 0 => "0"
  | 1 => "1"
  | 2 => "2"
  | 3 => "3"
  | 4 => "4"
  | 5 => "5"
  | 6 => "6"
  | 7 => "7"
  | 8 => "8"
  | 9 => "9"
  | 10 => "A"
  | 11 => "B"
  | 12 => "C"
  | 13 => "D"
  | 14 => "E"
  | _ => "F"

/-- `$nn`. -/
def hexByte (v : Byte) : String := "$" ++ hexDigit (v.toNat / 16) ++ hexDigit (v.toNat % 16)

/-- `$nnnn`. -/
def hexAddr (v : Addr) : String :=
  "$" ++ hexDigit (v.toNat / 4096) ++ hexDigit (v.toNat / 256 % 16) ++ hexDigit (v.toNat / 16 % 16) ++
    hexDigit (v.toNat % 16)

/-- The operand as R91 writes it, from the operand bytes in memory order; none where they are not as many as the mode has,
or the mode has no assembler form. -/
def operandText (m : Mode) (ia : Addr) (operands : List Byte) : Option String :=
  match m, operands with
  | .implied, [] => some ""
  | .accumulator, [] => some " A"
  | .immediate, [v] => some (" #" ++ hexByte v)
  | .zeroPage, [v] => some (" " ++ hexByte v)
  | .zeroPageX, [v] => some (" " ++ hexByte v ++ ",X")
  | .zeroPageY, [v] => some (" " ++ hexByte v ++ ",Y")
  | .absolute, [lo, hi] => some (" " ++ hexAddr (word16 hi lo))
  | .absoluteX, [lo, hi] => some (" " ++ hexAddr (word16 hi lo) ++ ",X")
  | .absoluteY, [lo, hi] => some (" " ++ hexAddr (word16 hi lo) ++ ",Y")
  | .indirectX, [v] => some (" (" ++ hexByte v ++ ",X)")
  | .indirectY, [v] => some (" (" ++ hexByte v ++ "),Y")
  | .relative, [off] => some (" " ++ hexAddr (branchTarget ia off))
  | _, _ => none

/-- The assembler text of an instruction at `ia` (R91, R105). NONE has no spelling. -/
def assemblerText (i : Instr) (ia : Addr) (operands : List Byte) : Option String :=
  match operandText i.mode ia operands with
  | none => none
  | some t => some (i.kind.mnemonic ++ t)

end Sys2Proof.Machine
end

