-- ==== Sys2Proof/Machine/HostOps.lean ====
section
/-! DEFINITION. The host interface: what the core's caller may do between runs (70_reset_and_hazards.md R290 to R298). -/

namespace Sys2Proof.Machine

/-- The run states in which the host may act: not RUNNING and not FAULTED (R295). -/
def RunState.hostMayAct : RunState → Bool
  | .idle => true
  | .halted => true
  | .bounded => true
  | .running => false
  | .faulted => false

/-- A host operation, refused where R295 does not allow it. -/
def whenAllowed (s : State) (t : Host.Outcome State Fault Refusal) : Host.Outcome State Fault Refusal :=
  if s.rs.hostMayAct then t else .refused .hostNotAllowed

/-- The 16-bit value at the reset vector, low byte at the lower address (R291); both bytes are below MEM_SIZE. -/
def vectorValue (m : Memory) : Addr :=
  word16 (m.read (Config.resetVector + 1#16).toNat) (m.read Config.resetVector.toNat)

/-- What `reset` does (R291): registers and flags to the reset values, PC from the vector, IDLE; M is kept.
The fault record is kept too (R40). -/
def resetState (s : State) : State :=
  { s.zeroSteps with
    a := 0x00
    x := 0x00
    y := 0x00
    p := 0x24
    pc := vectorValue s.mem
    rs := .idle }

/-- `reset()` (R291, R295). -/
def hostReset (s : State) : Host.Outcome State Fault Refusal := whenAllowed s (.next (resetState s))

/-- The capacity of `load`: the bytes from 0x8000 to the top of memory (R297). -/
def loadCapacity (memSize : Nat) : Nat := memSize - Config.loadBase.toNat

/-- The memory `load` leaves (R296): the program from 0x8000 upwards, then the vector, so that the vector wins (R298). -/
def loadedMemory (m : Memory) (program : List Byte) : Memory :=
  placeBytes (placeBytes m Config.loadBase program) Config.resetVector
    [Config.loadBase.setWidth 8, (Config.loadBase >>> 8).setWidth 8]

/-- What `load` does (R296, R297): a program too long is a fatal fault with nothing copied. -/
def loadState (s : State) (program : List Byte) : State :=
  if loadCapacity Config.memSize < program.length then s.takeFault (.loadCapacity program.length)
  else s.setMem (loadedMemory s.mem program)

/-- `load(program)` (R295 to R298). -/
def hostLoad (program : List Byte) (s : State) : Host.Outcome State Fault Refusal :=
  whenAllowed s (.next (loadState s program))

/-- What `run` does before its steps (R294): RUNNING, the step counter (where it exists) at 0, PC where it stands. -/
def runState (s : State) : State := (s.setRS .running).zeroSteps

/-- `run()` (R294, R295): the run loop's steps are `step`'s from the state it answers. -/
def hostRun (s : State) : Host.Outcome State Fault Refusal := whenAllowed s (.next (runState s))

/-- One host operation after another, stopping at the first that gives no next state. -/
def andThen (o : Host.Outcome State Fault Refusal) (f : State → Host.Outcome State Fault Refusal) :
    Host.Outcome State Fault Refusal :=
  match o with
  | .next t => f t
  | .fault r => .fault r
  | .refused r => .refused r

/-- `load_and_run(program)` (R293): load, reset, run in that order; where `load` faults, neither of the others happens. -/
def hostLoadAndRun (program : List Byte) (s : State) : Host.Outcome State Fault Refusal :=
  andThen (hostLoad program s) fun t =>
    if t.rs = .faulted then .next t else andThen (hostReset t) hostRun

/-- The 8-bit registers the host may read and write (R295). -/
inductive HostReg where
  | a | x | y | p
  deriving DecidableEq, Repr

/-- The value of an 8-bit register. -/
def HostReg.get (r : HostReg) (s : State) : Byte :=
  match r with
  | .a => s.a
  | .x => s.x
  | .y => s.y
  | .p => s.p

/-- An 8-bit register written. -/
def HostReg.put (r : HostReg) (v : Byte) (s : State) : State :=
  match r with
  | .a => s.setA v
  | .x => s.setX v
  | .y => s.setY v
  | .p => s.setP v

/-- The host reads an 8-bit register (R295). -/
def hostReadReg (r : HostReg) (s : State) : Host.Outcome Byte Fault Refusal :=
  if s.rs.hostMayAct then .next (r.get s) else .refused .hostNotAllowed

/-- The host reads PC (R295). -/
def hostReadPC (s : State) : Host.Outcome Addr Fault Refusal :=
  if s.rs.hostMayAct then .next s.pc else .refused .hostNotAllowed

/-- The host reads a byte of M (R295); 0xFFFF names no byte of M (log entry 14). -/
def hostReadMem (a : Addr) (s : State) : Host.Outcome Byte Fault Refusal :=
  if s.rs.hostMayAct then
    if inBounds a then .next (s.mem.read a.toNat) else .refused (.noSuchByte a)
  else .refused .hostNotAllowed

/-- The host writes an 8-bit register (R295). -/
def hostWriteReg (r : HostReg) (v : Byte) (s : State) : Host.Outcome State Fault Refusal :=
  whenAllowed s (.next (r.put v s))

/-- The host writes PC (R295). -/
def hostWritePC (v : Addr) (s : State) : Host.Outcome State Fault Refusal := whenAllowed s (.next (s.setPC v))

/-- The host writes a byte of M (R295); 0xFFFF names no byte of M (log entry 14). -/
def hostWriteMem (a : Addr) (v : Byte) (s : State) : Host.Outcome State Fault Refusal :=
  whenAllowed s (if inBounds a then .next (s.setMem (s.mem.write a.toNat v)) else .refused (.noSuchByte a))

/-- The host operations that change the state (R295), for claims about all of them. `new` creates a core: `State.new`. -/
inductive HostOp where
  | load (program : List Byte)
  | reset
  | run
  | loadAndRun (program : List Byte)
  | writeReg (r : HostReg) (v : Byte)
  | writePC (v : Addr)
  | writeMem (a : Addr) (v : Byte)
  deriving DecidableEq, Repr

/-- What a host operation does. -/
def hostDo (o : HostOp) (s : State) : Host.Outcome State Fault Refusal :=
  match o with
  | .load program => hostLoad program s
  | .reset => hostReset s
  | .run => hostRun s
  | .loadAndRun program => hostLoadAndRun program s
  | .writeReg r v => hostWriteReg r v s
  | .writePC v => hostWritePC v s
  | .writeMem a v => hostWriteMem a v s

end Sys2Proof.Machine
end

