-- ==== Sys2Proof/Safety.lean ====
section
/-! DEFINITION. The terms claims are stated in: the invariant, what a step leaves unchanged, flag effects bit by bit, and
who may write what. Nothing here is used by the machine. -/

namespace Sys2Proof.Safety

open Sys2Proof.Machine

/-- The invariant of the model: M is in its canonical form, a fault is recorded exactly when RS is FAULTED (R39), and the
step counter exists exactly when MAX_STEPS is not none (R38). -/
def Inv (s : State) : Prop :=
  s.mem.wf = true ∧ (s.rs = .faulted ↔ s.fault.isSome = true) ∧ s.steps.isSome = Config.maxSteps.isSome

/-! ### What is left unchanged -/

/-- Every byte of M reads as before. -/
def SameMemory (s t : State) : Prop := ∀ k, t.mem.read k = s.mem.read k

/-- Every byte of M but the one at `a` reads as before. -/
def SameMemoryBut (a : Addr) (s t : State) : Prop := ∀ k, k ≠ a.toNat → t.mem.read k = s.mem.read k

/-- The run state, the step counter and the fault record are as before. -/
def SameRun (s t : State) : Prop := t.rs = s.rs ∧ t.steps = s.steps ∧ t.fault = s.fault

/-- Every flag that is not listed is as before. -/
def SameFlagsBut (fs : List Flag) (s t : State) : Prop := ∀ f, f ∉ fs → t.flag f = s.flag f

/-- A, X and Y are as before. -/
def SameRegs (s t : State) : Prop := t.a = s.a ∧ t.x = s.x ∧ t.y = s.y

/-! ### Flag effects, bit by bit: from a status byte `p` to a status byte `q` -/

/-- Z and N of `v`, every other flag kept (10_state.md R30). -/
def ZNOf (v p q : Byte) : Prop :=
  getFlag .z q = (v == 0x00#8) ∧ getFlag .n q = v.getLsbD 7 ∧
    ∀ f, f ≠ .z → f ≠ .n → getFlag f q = getFlag f p

/-- Z and N of a state are those of `v` (R30). -/
def ZNSet (v : Byte) (t : State) : Prop := t.flag .z = (v == 0x00#8) ∧ t.flag .n = v.getLsbD 7

/-- The flags of a compare of register `r` with operand `v` (43_compare_bit.md R200). -/
def CompareOf (r v p q : Byte) : Prop :=
  getFlag .c q = decide (v.toNat ≤ r.toNat) ∧ getFlag .z q = decide (r = v) ∧ getFlag .n q = (r - v).getLsbD 7 ∧
    ∀ f, f ≠ .c → f ≠ .z → f ≠ .n → getFlag f q = getFlag f p

/-- The flags of BIT with accumulator `a` and operand `v` (R204). -/
def BitOf (a v p q : Byte) : Prop :=
  getFlag .z q = (a &&& v == 0x00#8) ∧ getFlag .n q = v.getLsbD 7 ∧ getFlag .v q = v.getLsbD 6 ∧
    ∀ f, f ≠ .z → f ≠ .n → f ≠ .v → getFlag f q = getFlag f p

/-- The flags of ASL on an original value `v` (41_logical_shift.md R162): bit 6 of it becomes N. -/
def AslOf (v p q : Byte) : Prop :=
  getFlag .c q = v.getLsbD 7 ∧ getFlag .z q = decide (2 * v.toNat % 256 = 0) ∧ getFlag .n q = v.getLsbD 6 ∧
    ∀ f, f ≠ .c → f ≠ .z → f ≠ .n → getFlag f q = getFlag f p

/-- One flag written, every other kept. -/
def OneFlagOf (f : Flag) (on : Bool) (p q : Byte) : Prop :=
  getFlag f q = on ∧ ∀ g, g ≠ f → getFlag g q = getFlag g p

/-! ### Operands -/

/-- The instruction of kind `k` in mode `m` has a memory operand at `a`, an address that has a byte. -/
def HasOperand (k : Kind) (m : Mode) (s : State) (a : Addr) : Prop :=
  resolve k m s = .ok (.addr a) ∧ a.toNat < Config.memSize

/-- The modes with no operand byte (30_encoding.md R91). -/
def noOperandModes : List Mode := [.implied, .accumulator, .noneAddressing]

/-- The modes of a memory operand with one operand byte (R91). -/
def oneByteModes : List Mode := [.immediate, .zeroPage, .zeroPageX, .zeroPageY, .indirectX, .indirectY]

/-- The modes of a memory operand with two operand bytes (R91). -/
def twoByteModes : List Mode := [.absolute, .absoluteX, .absoluteY]

/-- PC after an instruction of mode `m` that does not jump, from PC during its execution (30_encoding.md R99). -/
def pcAfter (m : Mode) (s : State) : Addr := s.pc + BitVec.ofNat 16 (m.length - 1)

/-- The 16-bit value of the zero-page pointer at `p` under a value of ZP_PTR_WRAP (20_memory.md R63), as a number. -/
def pointerValue (w : ZpPtrWrap) (m : Memory) (p : Nat) : Nat :=
  (m.read p).toNat +
    256 * (m.read (match w with
      | .zeroPage => (p + 1) % 256
      | .linear => p + 1)).toNat

/-! ### Who may write what -/

/-- The operation kinds whose executor calls the resolver (30_encoding.md R109). -/
def resolverKinds : List Kind :=
  [.lda, .ldx, .ldy, .sta, .and, .eor, .asl, .inc, .dec, .cmp, .cpx, .cpy, .bit]

/-- The writers of each flag (10_state.md R29). -/
def flagWriters : Flag → List Kind
  | .c => [.asl, .cmp, .cpx, .cpy, .clc]
  | .z => [.lda, .ldx, .ldy, .tax, .tay, .and, .eor, .asl, .inx, .iny, .dex, .dey, .inc, .dec, .cmp, .cpx, .cpy, .bit]
  | .i => [.cli]
  | .d => [.cld]
  | .b => [.brk]
  | .u => []
  | .v => [.bit, .clv]
  | .n => [.lda, .ldx, .ldy, .tax, .tay, .and, .eor, .asl, .inx, .iny, .dex, .dey, .inc, .dec, .cmp, .cpx, .cpy, .bit]

/-- The instruction the next step of a RUNNING core fetches, where the byte at PC exists. -/
def fetched (s : State) : Instr := decodeOpcode (s.mem.read s.pc.toNat)

/-- Two states alike in everything but the flags I and D (10_state.md R31). -/
def AlikeButID (s t : State) : Prop :=
  SameRegs s t ∧ t.pc = s.pc ∧ t.mem = s.mem ∧ SameRun s t ∧ SameFlagsBut [.i, .d] s t

end Sys2Proof.Safety
end

