-- ==== Sys2Proof/Certificates/Slice0/Obligations.lean ====
section
/-! DEFINITION. The statements for the provers. Each docstring names the rules of spec/ it formalises, and the log entries
(notes/assumptions/<n>.md) of the spec's own decisions or the model's choices it rests on. -/

open Sys2Proof Sys2Proof.Machine Sys2Proof.Safety

/-! ### Encoding -/

/-- Decode and encode agree: for every instruction and operand bytes that encode, with whatever bytes after them, the
decoder gives the instruction, every operand byte and the rest back; and every well-formed instruction encodes with every
operand bytes of its length (R90, R103; the opcode numbers and lengths are log entry 7). -/
def Obligations.DecodeGivesEncodedInstructionBack : Prop :=
  (∀ i operands bytes rest, encode i operands = some bytes → decode (bytes ++ rest) = .ok (i, operands, rest)) ∧
    ∀ i : Instr, i.wf = true → ∀ operands : List Byte, operands.length + 1 = i.len →
      ∃ bytes, encode i operands = some bytes ∧ bytes.length = i.len

/-- Every byte sequence has one meaning: what the decoder reads is well formed, and encoding it gives the bytes read, none
dropped (R90, R95, R96). -/
def Obligations.DecodedInstructionEncodesToItsBytes : Prop :=
  ∀ bytes i operands rest, decode bytes = .ok (i, operands, rest) →
    i.wf = true ∧ ∃ used, encode i operands = some used ∧ bytes = used ++ rest ∧ used.length = i.len

/-- Words written out from R91, R94 and R95 decode to the instructions they stand for, some of each family and of each mode
(the opcode numbers are log entry 7; 0xA9, 0xAA and 0x00 are the source's own). -/
def Obligations.WrittenOutWordsDecode : Prop :=
  decode [0xA9, 0x05] = .ok (.lda .immediate, [0x05], []) ∧
  decode [0x8D, 0x08, 0x80, 0xEA] = .ok (.sta .absolute, [0x08, 0x80], [0xEA]) ∧
  decode [0xAA] = .ok (.tax, [], []) ∧
  decode [0x51, 0x10] = .ok (.eor .indirectY, [0x10], []) ∧
  decode [0x0A, 0x00] = .ok (.asl .accumulator, [], [0x00]) ∧
  decode [0xDE, 0x00, 0x02] = .ok (.dec .absoluteX, [0x00, 0x02], []) ∧
  decode [0xC1, 0x20] = .ok (.cmp .indirectX, [0x20], []) ∧
  decode [0x24, 0x10] = .ok (.bit .zeroPage, [0x10], []) ∧
  decode [0xD0, 0xFB] = .ok (.bne, [0xFB], []) ∧
  decode [0xB8] = .ok (.clv, [], []) ∧
  decode [0x00] = .ok (.brk, [], []) ∧
  decode [0x69, 0x05] = .ok (.noneOp 0x69, [], [0x05]) ∧
  decode [0xB5, 0x80] = .ok (.lda .zeroPageX, [0x80], []) ∧
  decode [0xB6, 0x10] = .ok (.ldx .zeroPageY, [0x10], []) ∧
  decode [0x99, 0x00, 0x02] = .ok (.sta .absoluteY, [0x00, 0x02], [])

/-- Decode never fails on an opcode byte: with two bytes after it (the longest operand) every byte gives its own descriptor
and as many operand bytes as its length leaves, and only a missing byte stops the decoder (R90, R96, R103, R104). The length
is the one R91 gives the descriptor's mode: 1, 2 or 3 (the lengths are log entry 7). -/
def Obligations.EveryOpcodeByteDecodes : Prop :=
  (∀ (op b1 b2 : Byte) (rest : List Byte), ∃ operands after,
    decode (op :: b1 :: b2 :: rest) = .ok (decodeOpcode op, operands, after) ∧
      operands ++ after = b1 :: b2 :: rest ∧ operands.length + 1 = (opcodeTable op).len) ∧
  (∀ op : Byte, (opcodeTable op).code = op ∧ 1 ≤ (opcodeTable op).len ∧ (opcodeTable op).len ≤ 3 ∧
    (opcodeTable op).mode ≠ .indirect ∧ (opcodeTable op).len = (opcodeTable op).mode.length ∧
    (decodeOpcode op).mode = (opcodeTable op).mode) ∧
  (∀ m ∈ noOperandModes, m.length = 1) ∧ (∀ m ∈ .relative :: oneByteModes, m.length = 2) ∧
  (∀ m ∈ twoByteModes, m.length = 3) ∧
  ∀ bytes e, decode bytes = .error e → bytes.length < 3

/-- The opcode table is well formed (R109): an executor that calls the resolver has a mode the resolver answers, one whose
mode the resolver rejects does not call it, and so no opcode's executor raises a usage error. -/
def Obligations.UsageErrorIsUnreachable : Prop :=
  (∀ op : Byte, (decodeOpcode op).kind ∈ resolverKinds → (decodeOpcode op).mode.resolvable = true) ∧
  (∀ op : Byte, (decodeOpcode op).mode.resolvable = false → (decodeOpcode op).kind ∉ resolverKinds) ∧
  ∀ (op : Byte) (s : State) (m : Mode) (k : Kind), exec (decodeOpcode op) s ≠ .fault (.usageError m k)

/-! ### The step -/

/-- A step of a RUNNING core runs the decoded instruction: where the bytes at PC decode to `i`, the step is `exec i` from
the state with PC past the opcode byte; a next state has the step counted where the counter exists, and a fault is taken
from the state before the step (R38, R97, R98, R100, R102, R269; PC past the opcode is log entry 5, the fault log
entry 8, the counter log entry 12). -/
def Obligations.StepRunsTheDecodedInstruction : Prop :=
  ∀ (s : State) (i : Instr) (operands rest : List Byte), s.rs = .running → s.pc.toNat < Config.memSize →
    decode (bytesAt s.mem s.pc 3) = .ok (i, operands, rest) →
      step s = (match exec i { s with pc := s.pc + 1 } with
        | .next t => .next { t with steps := t.steps.map (· + 1) }
        | .fault f => .next { s with rs := .faulted, fault := some f }
        | .refused r => .refused r)

/-- Every step answers a next state, whatever the state: no byte wedges the core, none is refused, and a fatal fault is the
state FAULTED (R96, R104, R245, R269; NONE as a no-op is log entry 4, the fault state log entry 8).
That a core that is not RUNNING answers its own state is the model's choice (log entry 9). -/
def Obligations.EveryStepAnswersNextState : Prop := ∀ s : State, ∃ t, step s = .next t

/-- A core that is not RUNNING executes nothing: a step keeps the whole state (R36, R37, R270, R273; log entry 9). -/
def Obligations.OnlyARunningCoreExecutes : Prop := ∀ s : State, s.rs ≠ .running → step s = .next s

/-- The step bound (R102): at the bound a RUNNING core becomes BOUNDED with nothing executed; below it, and without a
bound, it executes one instruction. This hardware has no bound (decision D11, log entry 12). -/
def Obligations.StepBoundStopsBeforeTheNextInstruction : Prop :=
  ∀ (s : State) (n : Nat), s.rs = .running →
    (s.steps = some n → stepWith (some n) s = .next { s with rs := .bounded }) ∧
    (s.steps ≠ some n → stepWith (some n) s = stepInstr s) ∧
    stepWith none s = stepInstr s ∧ step s = stepInstr s

/-- A fatal fault is precise: a step that ends FAULTED leaves every register, flag, PC and byte of memory as before, and
records a bounds fault at 0xFFFF with the address of the instruction (R100, R267, R269, R271).
MEM_SIZE = 0xFFFF and the effect on RS are the spec's decisions D4 and D10 (log entries 2 and 8); that the step counter
does not count the step is the model's deduction (log entry 12). -/
def Obligations.FaultingStepKeepsNoWrite : Prop :=
  ∀ s t : State, s.rs = .running → step s = .next t → t.rs = .faulted →
    t = { s with rs := .faulted, fault := some (.memoryBounds 0xFFFF s.pc) }

/-- HALTED is entered by BRK alone: a step of a RUNNING core ends HALTED exactly when the byte at PC is 0x00, and then PC is
the next address, B is set and everything else but the count is as before; every other step ends RUNNING or FAULTED
(R37, R244, R303; PC after BRK is decision D7, log entry 5, and bit 4 decision D8, log entry 13; the step is counted
where the counter exists, log entry 12). -/
def Obligations.OnlyBrkHalts : Prop :=
  ∀ s t : State, s.rs = .running → step s = .next t →
    (t.rs = .halted ↔ s.pc.toNat < Config.memSize ∧ s.mem.read s.pc.toNat = 0x00) ∧
    (t.rs = .halted → ∃ q, OneFlagOf .b true s.p q ∧
      t = { s with p := q, pc := s.pc + 1, rs := .halted, steps := s.steps.map (· + 1) }) ∧
    (t.rs = .running ∨ t.rs = .halted ∨ t.rs = .faulted)

/-- The invariant is kept by every step: M stays in its canonical form, a fault is recorded exactly when RS is FAULTED,
and the step counter exists exactly when MAX_STEPS is not none (R38, R39, R51, R269; the fault state is log entry 8, the
bound log entry 12). -/
def Obligations.InvariantKeptByEveryStep : Prop := ∀ s t : State, Inv s → step s = .next t → Inv t

/-- The invariant holds at reset and in what `new` creates (R40). -/
def Obligations.InvariantHoldsAtReset : Prop := Inv State.reset ∧ Inv State.new

/-- The invariant is kept by every host operation that is carried out (R295 to R297; log entry 14). -/
def Obligations.InvariantKeptByHostOperations : Prop :=
  ∀ (o : HostOp) (s t : State), Inv s → hostDo o s = .next t → Inv t

/-- Who writes each flag (the written by column of R29): where a step changes a flag, the instruction it ran is one of the
flag's writers; U has none, I, D and B change one way only. -/
def Obligations.FlagsChangeOnlyByTheirWriters : Prop :=
  ∀ (s t : State) (f : Flag), step s = .next t → t.flag f ≠ s.flag f →
    s.rs = .running ∧ (fetched s).kind ∈ flagWriters f ∧ f ≠ .u ∧
      (f = .i → t.flag f = false) ∧ (f = .d → t.flag f = false) ∧ (f = .b → t.flag f = true)

/-- Who writes A, X, Y and memory (R21, R22, R23, R69): where a step changes one of them, the instruction it ran is one of
its writers. -/
def Obligations.RegistersAndMemoryChangeOnlyByTheirWriters : Prop :=
  ∀ s t : State, step s = .next t →
    (t.a ≠ s.a → (fetched s).kind ∈ [.lda, .and, .eor] ∨ fetched s = .asl .accumulator) ∧
    (t.x ≠ s.x → (fetched s).kind ∈ [.ldx, .tax, .inx, .dex]) ∧
    (t.y ≠ s.y → (fetched s).kind ∈ [.ldy, .tay, .iny, .dey]) ∧
    (t.mem ≠ s.mem → (fetched s).kind ∈ [.sta, .inc, .dec] ∨
      ((fetched s).kind = .asl ∧ fetched s ≠ .asl .accumulator))

/-- I and D have no effect on any instruction (R31): two states alike but for I and D step to states alike but for I and D. -/
def Obligations.InterruptAndDecimalFlagsAffectNothing : Prop :=
  ∀ s s' t t' : State, AlikeButID s s' → step s = .next t → step s' = .next t' → AlikeButID t t'

/-- A byte just stored is the opcode the next fetch of its address reads, with nothing between (R73, R301). -/
def Obligations.StoredByteIsFetchedNext : Prop :=
  ∀ (m : Mode) (s t : State) (a : Addr), s.mem.wf = true → HasOperand .sta m s a → exec (.sta m) s = .next t → t.pc = a →
    fetchOpcode t = .ok s.a

/-! ### Memory -/

/-- Memory is plain storage (R56, R70): a byte written is read back, every other byte reads as before, and a read changes
nothing. -/
def Obligations.ReadAfterWriteGivesTheByteWritten : Prop :=
  ∀ (s t : State) (a : Addr) (v : Byte), s.mem.wf = true → memWrite s a v = .ok t →
    memRead t a = .ok v ∧ (∀ b, b ≠ a → memRead t b = memRead s b) ∧ t.mem.wf = true ∧ t = { s with mem := t.mem }

/-- Every address below MEM_SIZE is readable and writable, always, and names its own byte of M (R75). -/
def Obligations.EveryByteIsReadableAndWritable : Prop :=
  ∀ (s : State) (a : Addr) (v : Byte), a.toNat < Config.memSize →
    memRead s a = .ok (s.mem.read a.toNat) ∧ ∃ t, memWrite s a v = .ok t ∧ (s.mem.wf = true → t.mem.read a.toNat = v)

/-- An access to an address at or above MEM_SIZE raises the bounds fault with the address and the instruction's own
(R11, R52, R267), and that address is 0xFFFF. MEM_SIZE = 0xFFFF is the spec's decision D4 (log entry 2). -/
def Obligations.MissingByteRaisesBoundsFault : Prop :=
  ∀ (s : State) (a : Addr) (v : Byte), Config.memSize ≤ a.toNat →
    a = 0xFFFF ∧ memRead s a = .error (.memoryBounds a (s.pc - 1)) ∧
      memWrite s a v = .error (.memoryBounds a (s.pc - 1)) ∧
      (s.pc = a → fetchOpcode s = .error (.memoryBounds a s.pc))

/-- A two-byte read is little-endian, its second byte at the next address (R11, R53, R54); it faults at 0xFFFF where either
address is 0xFFFF, the one with no byte (R52; MEM_SIZE = 0xFFFF is the spec's decision D4, log entry 2). -/
def Obligations.TwoByteReadIsLittleEndian : Prop :=
  ∀ (s : State) (a : Addr),
    (a.toNat + 1 < Config.memSize → ∃ w, memRead16 s a = .ok w ∧
      w.toNat = (s.mem.read a.toNat).toNat + 256 * (s.mem.read (a.toNat + 1)).toNat) ∧
    (a = 0xFFFE ∨ a = 0xFFFF → memRead16 s a = .error (.memoryBounds 0xFFFF (s.pc - 1)))

/-! ### The address resolver -/

/-- The resolver's forms with at most one operand byte (R59, R60, R61, R67): Immediate is PC itself and reads nothing, zero
page is the byte zero-extended, indexed zero page wraps modulo 256, Accumulator is the sentinel. -/
def Obligations.ResolverOneByteForms : Prop :=
  ∀ (w : ZpPtrWrap) (k : Kind) (s : State),
    resolveWith w k .immediate s = .ok (.addr s.pc) ∧
    resolveWith w k .accumulator s = .ok .acc ∧
    ∀ b, memRead s s.pc = .ok b →
      (∃ a, resolveWith w k .zeroPage s = .ok (.addr a) ∧ a.toNat = b.toNat) ∧
      (∃ a, resolveWith w k .zeroPageX s = .ok (.addr a) ∧ a.toNat = (b.toNat + s.x.toNat) % 256) ∧
      (∃ a, resolveWith w k .zeroPageY s = .ok (.addr a) ∧ a.toNat = (b.toNat + s.y.toNat) % 256)

/-- The resolver's two-byte forms (R62, R64): the two bytes at PC, low byte first, plus the index modulo 2^16. -/
def Obligations.ResolverTwoByteForms : Prop :=
  ∀ (w : ZpPtrWrap) (k : Kind) (s : State) (lo hi : Byte),
    memRead s s.pc = .ok lo → memRead s (s.pc + 1) = .ok hi →
      (∃ a, resolveWith w k .absolute s = .ok (.addr a) ∧ a.toNat = lo.toNat + 256 * hi.toNat) ∧
      (∃ a, resolveWith w k .absoluteX s = .ok (.addr a) ∧
        a.toNat = (lo.toNat + 256 * hi.toNat + s.x.toNat) % 65536) ∧
      (∃ a, resolveWith w k .absoluteY s = .ok (.addr a) ∧
        a.toNat = (lo.toNat + 256 * hi.toNat + s.y.toNat) % 65536)

/-- The resolver's indirect forms (R63, R65, R66) under either value of the OPEN parameter ZP_PTR_WRAP (decision D5, log
entry 3): Indirect_X adds X modulo 256 to the operand and reads the pointer there, Indirect_Y reads the pointer at the
operand and adds Y modulo 2^16. -/
def Obligations.ResolverIndirectForms : Prop :=
  ∀ (w : ZpPtrWrap) (k : Kind) (s : State) (b : Byte), memRead s s.pc = .ok b →
    (∃ a, resolveWith w k .indirectX s = .ok (.addr a) ∧
      a.toNat = pointerValue w s.mem ((b.toNat + s.x.toNat) % 256)) ∧
    (∃ a, resolveWith w k .indirectY s = .ok (.addr a) ∧
      a.toNat = (pointerValue w s.mem b.toNat + s.y.toNat) % 65536)

/-- ZP_PTR_WRAP matters only for a pointer at 0xFF (R63): otherwise both its values resolve every mode alike
(log entry 3). -/
def Obligations.PointerWrapMattersOnlyAtFF : Prop :=
  ∀ (k : Kind) (m : Mode) (s : State),
    (∀ b, memRead s s.pc = .ok b → (m = .indirectX → b + s.x ≠ 0xFF) ∧ (m = .indirectY → b ≠ 0xFF)) →
      resolveWith .zeroPage k m s = resolveWith .linear k m s ∧ resolve k m s = resolveWith .zeroPage k m s

/-- The modes the resolver rejects raise a usage error with the mode and the operation (R68, R266), and so does every
executor that is given one. That Indirect is among them is the spec's decision D14. -/
def Obligations.UnresolvableModesRaiseUsageError : Prop :=
  ∀ (w : ZpPtrWrap) (k : Kind) (m : Mode) (s : State), m.resolvable = false →
    resolveWith w k m s = .error (.usageError m k) ∧
    exec (.lda m) s = .fault (.usageError m .lda) ∧ exec (.ldx m) s = .fault (.usageError m .ldx) ∧
    exec (.ldy m) s = .fault (.usageError m .ldy) ∧ exec (.sta m) s = .fault (.usageError m .sta) ∧
    exec (.and m) s = .fault (.usageError m .and) ∧ exec (.eor m) s = .fault (.usageError m .eor) ∧
    exec (.asl m) s = .fault (.usageError m .asl) ∧ exec (.inc m) s = .fault (.usageError m .inc) ∧
    exec (.dec m) s = .fault (.usageError m .dec) ∧ exec (.cmp m) s = .fault (.usageError m .cmp) ∧
    exec (.cpx m) s = .fault (.usageError m .cpx) ∧ exec (.cpy m) s = .fault (.usageError m .cpy) ∧
    exec (.bit m) s = .fault (.usageError m .bit)

/-! ### Flags -/

/-- `setZN` sets Z exactly when the value is 0 and N exactly when its bit 7 is set, whatever they were, and leaves every
other flag untouched; and every load, transfer, arithmetic and logical instruction leaves Z and N of its result (R30). -/
def Obligations.SetZNFollowsTheValue : Prop :=
  (∀ v p : Byte, ZNOf v p (setZN v p)) ∧
  ∀ (m : Mode) (s t : State),
    (exec (.lda m) s = .next t ∨ exec (.and m) s = .next t ∨ exec (.eor m) s = .next t ∨
      exec (.asl .accumulator) s = .next t → ZNSet t.a t) ∧
    (exec (.ldx m) s = .next t ∨ exec .tax s = .next t ∨ exec .inx s = .next t ∨ exec .dex s = .next t → ZNSet t.x t) ∧
    (exec (.ldy m) s = .next t ∨ exec .tay s = .next t ∨ exec .iny s = .next t ∨ exec .dey s = .next t → ZNSet t.y t) ∧
    ∀ a : Addr, s.mem.wf = true →
      (resolve .asl m s = .ok (.addr a) → exec (.asl m) s = .next t → ZNSet (t.mem.read a.toNat) t) ∧
      (resolve .inc m s = .ok (.addr a) → exec (.inc m) s = .next t → ZNSet (t.mem.read a.toNat) t) ∧
      (resolve .dec m s = .ok (.addr a) → exec (.dec m) s = .next t → ZNSet (t.mem.read a.toNat) t)

/-- The compare function (R200): C exactly when the operand is not above the register, Z exactly when they are equal, N from
bit 7 of the difference, nothing else; the compares keep the register compared. -/
def Obligations.CompareSetsCarryZeroNegative : Prop :=
  (∀ r v p : Byte, CompareOf r v p (compareFlags r v p)) ∧
  ∀ (m : Mode) (s t : State),
    (exec (.cmp m) s = .next t → t.a = s.a) ∧ (exec (.cpx m) s = .next t → t.x = s.x) ∧
      (exec (.cpy m) s = .next t → t.y = s.y)

/-- The flags of P are set, cleared and tested each independently, and P is nothing but its eight flags (R26, R28). -/
def Obligations.FlagsAreIndependent : Prop :=
  (∀ (f g : Flag) (on : Bool) (p : Byte), getFlag g (putFlag f on p) = if g = f then on else getFlag g p) ∧
  ∀ p q : Byte, (∀ f, getFlag f p = getFlag f q) → p = q

/-! ### What each instruction does, for every mode it has

PC after each is R99's, which rests on the spec's decisions D6 and D7 and on general-knowledge lengths (log entries 5 and 7).
Each conclusion is the next state itself: what it does not name is as before. -/

/-- LDA, LDX and LDY load the operand and set Z and N from it (R130, R131, R132). -/
def Obligations.LoadsReadTheOperand : Prop :=
  ∀ (m : Mode) (s : State) (a : Addr),
    (HasOperand .lda m s a → ∃ q, ZNOf (s.mem.read a.toNat) s.p q ∧
      exec (.lda m) s = .next { s with a := s.mem.read a.toNat, p := q, pc := pcAfter m s }) ∧
    (HasOperand .ldx m s a → ∃ q, ZNOf (s.mem.read a.toNat) s.p q ∧
      exec (.ldx m) s = .next { s with x := s.mem.read a.toNat, p := q, pc := pcAfter m s }) ∧
    (HasOperand .ldy m s a → ∃ q, ZNOf (s.mem.read a.toNat) s.p q ∧
      exec (.ldy m) s = .next { s with y := s.mem.read a.toNat, p := q, pc := pcAfter m s })

/-- STA writes A to the resolved address and no flag (R133). -/
def Obligations.StoreWritesTheAccumulator : Prop :=
  ∀ (m : Mode) (s : State) (a : Addr), s.mem.wf = true → HasOperand .sta m s a →
    ∃ mem, exec (.sta m) s = .next { s with mem := mem, pc := pcAfter m s } ∧
      mem.read a.toNat = s.a ∧ ∀ k, k ≠ a.toNat → mem.read k = s.mem.read k

/-- TAX and TAY copy A and set Z and N from it (R134, R135). -/
def Obligations.TransfersCopyTheAccumulator : Prop :=
  ∀ s : State, ∃ q, ZNOf s.a s.p q ∧
    exec .tax s = .next { s with x := s.a, p := q } ∧ exec .tay s = .next { s with y := s.a, p := q }

/-- AND and EOR combine A with the operand and set Z and N from the result (R160, R161). -/
def Obligations.LogicalCombinesWithTheAccumulator : Prop :=
  ∀ (m : Mode) (s : State) (a : Addr),
    (HasOperand .and m s a → ∃ q, ZNOf (s.a &&& s.mem.read a.toNat) s.p q ∧
      exec (.and m) s = .next { s with a := s.a &&& s.mem.read a.toNat, p := q, pc := pcAfter m s }) ∧
    (HasOperand .eor m s a → ∃ q, ZNOf (s.a ^^^ s.mem.read a.toNat) s.p q ∧
      exec (.eor m) s = .next { s with a := s.a ^^^ s.mem.read a.toNat, p := q, pc := pcAfter m s })

/-- ASL shifts A in Accumulator mode and its memory operand in every other mode, with C from the old bit 7 and Z and N from
the result (R162, conflict C4). -/
def Obligations.ShiftLeftDoublesTheOperand : Prop :=
  (∀ s : State, ∃ r q, r.toNat = 2 * s.a.toNat % 256 ∧ AslOf s.a s.p q ∧
    exec (.asl .accumulator) s = .next { s with a := r, p := q }) ∧
  ∀ (m : Mode) (s : State) (a : Addr), s.mem.wf = true → HasOperand .asl m s a →
    ∃ mem q, AslOf (s.mem.read a.toNat) s.p q ∧
      exec (.asl m) s = .next { s with mem := mem, p := q, pc := pcAfter m s } ∧
      (mem.read a.toNat).toNat = 2 * (s.mem.read a.toNat).toNat % 256 ∧
      ∀ k, k ≠ a.toNat → mem.read k = s.mem.read k

/-- INX, INY, DEX and DEY add or subtract 1 modulo 256 and set Z and N from the result (R180 to R183). -/
def Obligations.RegisterIncrementsAndDecrementsWrap : Prop :=
  ∀ s : State,
    (∃ r q, r.toNat = (s.x.toNat + 1) % 256 ∧ ZNOf r s.p q ∧ exec .inx s = .next { s with x := r, p := q }) ∧
    (∃ r q, r.toNat = (s.y.toNat + 1) % 256 ∧ ZNOf r s.p q ∧ exec .iny s = .next { s with y := r, p := q }) ∧
    (∃ r q, r.toNat = (s.x.toNat + 255) % 256 ∧ ZNOf r s.p q ∧ exec .dex s = .next { s with x := r, p := q }) ∧
    (∃ r q, r.toNat = (s.y.toNat + 255) % 256 ∧ ZNOf r s.p q ∧ exec .dey s = .next { s with y := r, p := q })

/-- INC and DEC add or subtract 1 modulo 256 in memory, at the address read, and set Z and N from the result
(R184, R185). -/
def Obligations.MemoryIncrementsAndDecrementsWrap : Prop :=
  ∀ (m : Mode) (s : State) (a : Addr), s.mem.wf = true →
    (HasOperand .inc m s a → ∃ mem q, ZNOf (mem.read a.toNat) s.p q ∧
      exec (.inc m) s = .next { s with mem := mem, p := q, pc := pcAfter m s } ∧
      (mem.read a.toNat).toNat = ((s.mem.read a.toNat).toNat + 1) % 256 ∧
      ∀ k, k ≠ a.toNat → mem.read k = s.mem.read k) ∧
    (HasOperand .dec m s a → ∃ mem q, ZNOf (mem.read a.toNat) s.p q ∧
      exec (.dec m) s = .next { s with mem := mem, p := q, pc := pcAfter m s } ∧
      (mem.read a.toNat).toNat = ((s.mem.read a.toNat).toNat + 255) % 256 ∧
      ∀ k, k ≠ a.toNat → mem.read k = s.mem.read k)

/-- CMP, CPX and CPY compare A, X and Y with the operand and write C, Z and N only (R200 to R203). -/
def Obligations.ComparesWriteFlagsOnly : Prop :=
  ∀ (m : Mode) (s : State) (a : Addr),
    (HasOperand .cmp m s a → ∃ q, CompareOf s.a (s.mem.read a.toNat) s.p q ∧
      exec (.cmp m) s = .next { s with p := q, pc := pcAfter m s }) ∧
    (HasOperand .cpx m s a → ∃ q, CompareOf s.x (s.mem.read a.toNat) s.p q ∧
      exec (.cpx m) s = .next { s with p := q, pc := pcAfter m s }) ∧
    (HasOperand .cpy m s a → ∃ q, CompareOf s.y (s.mem.read a.toNat) s.p q ∧
      exec (.cpy m) s = .next { s with p := q, pc := pcAfter m s })

/-- BIT sets Z from the AND with A and N and V from the operand's bits 7 and 6 (R204, conflicts C2 and C8). -/
def Obligations.BitTestWritesFlagsOnly : Prop :=
  ∀ (m : Mode) (s : State) (a : Addr), HasOperand .bit m s a →
    ∃ q, BitOf s.a (s.mem.read a.toNat) s.p q ∧ exec (.bit m) s = .next { s with p := q, pc := pcAfter m s }

/-- A taken branch reads its offset byte and goes to the address after it plus the signed offset, modulo 2^16 (R220 to R228).
That nothing more is added is the spec's decision D6 (log entry 5). -/
def Obligations.TakenBranchGoesToItsTarget : Prop :=
  ∀ s : State, s.pc.toNat < Config.memSize →
    let target := s.pc + 1 + BitVec.ofInt 16 (s.mem.read s.pc.toNat).toInt
    (s.flag .c = false → exec .bcc s = .next { s with pc := target }) ∧
    (s.flag .c = true → exec .bcs s = .next { s with pc := target }) ∧
    (s.flag .z = true → exec .beq s = .next { s with pc := target }) ∧
    (s.flag .z = false → exec .bne s = .next { s with pc := target }) ∧
    (s.flag .n = true → exec .bmi s = .next { s with pc := target }) ∧
    (s.flag .n = false → exec .bpl s = .next { s with pc := target }) ∧
    (s.flag .v = false → exec .bvc s = .next { s with pc := target }) ∧
    (s.flag .v = true → exec .bvs s = .next { s with pc := target })

/-- A branch that is not taken reads no offset byte and passes it (R69, R99, R220), even where the byte does not exist. -/
def Obligations.UntakenBranchPassesItsOffset : Prop :=
  ∀ s : State,
    (s.flag .c = true → exec .bcc s = .next { s with pc := s.pc + 1 }) ∧
    (s.flag .c = false → exec .bcs s = .next { s with pc := s.pc + 1 }) ∧
    (s.flag .z = false → exec .beq s = .next { s with pc := s.pc + 1 }) ∧
    (s.flag .z = true → exec .bne s = .next { s with pc := s.pc + 1 }) ∧
    (s.flag .n = false → exec .bmi s = .next { s with pc := s.pc + 1 }) ∧
    (s.flag .n = true → exec .bpl s = .next { s with pc := s.pc + 1 }) ∧
    (s.flag .v = true → exec .bvc s = .next { s with pc := s.pc + 1 }) ∧
    (s.flag .v = false → exec .bvs s = .next { s with pc := s.pc + 1 })

/-- CLC, CLD, CLI and CLV clear one flag and do nothing else (R240 to R243). -/
def Obligations.FlagClearsClearOneFlag : Prop :=
  ∀ s : State,
    (∃ q, OneFlagOf .c false s.p q ∧ exec .clc s = .next { s with p := q }) ∧
    (∃ q, OneFlagOf .d false s.p q ∧ exec .cld s = .next { s with p := q }) ∧
    (∃ q, OneFlagOf .i false s.p q ∧ exec .cli s = .next { s with p := q }) ∧
    (∃ q, OneFlagOf .v false s.p q ∧ exec .clv s = .next { s with p := q })

/-- BRK sets B, halts the run loop and leaves PC past its byte (R244, R261). That B alone is set and where PC stands are the
spec's decisions D8 and D7 (log entries 13 and 5). -/
def Obligations.BrkHaltsWithBreakSet : Prop :=
  ∀ s : State, ∃ q, OneFlagOf .b true s.p q ∧ exec .brk s = .next { s with p := q, rs := .halted }

/-- NONE changes nothing, PC standing past its one byte, whichever byte it was decoded from (R245); the policy `refuse`
would refuse it (R246). That this hardware's policy is `nop` is the spec's decision D9 (log entry 4). -/
def Obligations.UnlistedOpcodeIsOneByteNop : Prop :=
  ∀ (op : Byte) (s : State), exec (.noneOp op) s = .next s ∧ unlisted .nop op s = .next s ∧
    unlisted .refuse op s = .refused (.unlistedOpcode op) ∧
    (op ∈ noneCodes → decodeOpcode op = .noneOp op ∧ (decodeOpcode op).len = 1)

/-! ### Where an instruction faults -/

/-- A memory operand that cannot be reached faults (R52, R69, R267, R271; MEM_SIZE = 0xFFFF is log entry 2): with the
resolver's fault where it has one, and with the bounds fault where the resolved address has no byte. The resolver has the
bounds fault at 0xFFFF where an operand byte lies there, whichever value ZP_PTR_WRAP has (log entry 3): every operand byte a
resolver reads where PC is 0xFFFF, the high one of two where PC is 0xFFFE. -/
def Obligations.UnreachableOperandFaults : Prop :=
  ∀ (i : Instr) (s : State), i.kind ∈ resolverKinds →
    (∀ f, resolve i.kind i.mode s = .error f → exec i s = .fault f) ∧
    (∀ a, resolve i.kind i.mode s = .ok (.addr a) → Config.memSize ≤ a.toNat →
      exec i s = .fault (.memoryBounds a (s.pc - 1))) ∧
    (s.pc = 0xFFFF → i.mode ∈ oneByteModes ∨ i.mode ∈ twoByteModes →
      (∀ w, i.mode ≠ .immediate → resolveWith w i.kind i.mode s = .error (.memoryBounds 0xFFFF 0xFFFE)) ∧
        exec i s = .fault (.memoryBounds 0xFFFF 0xFFFE)) ∧
    (s.pc = 0xFFFE → i.mode ∈ twoByteModes →
      (∀ w, resolveWith w i.kind i.mode s = .error (.memoryBounds 0xFFFF 0xFFFD)) ∧
        exec i s = .fault (.memoryBounds 0xFFFF 0xFFFD))

/-- A taken branch whose offset byte does not exist faults (R220, R267; MEM_SIZE = 0xFFFF is log entry 2). -/
def Obligations.TakenBranchWithoutOffsetByteFaults : Prop :=
  ∀ s : State, s.pc = 0xFFFF →
    (s.flag .c = false → exec .bcc s = .fault (.memoryBounds 0xFFFF 0xFFFE)) ∧
    (s.flag .c = true → exec .bcs s = .fault (.memoryBounds 0xFFFF 0xFFFE)) ∧
    (s.flag .z = true → exec .beq s = .fault (.memoryBounds 0xFFFF 0xFFFE)) ∧
    (s.flag .z = false → exec .bne s = .fault (.memoryBounds 0xFFFF 0xFFFE)) ∧
    (s.flag .n = true → exec .bmi s = .fault (.memoryBounds 0xFFFF 0xFFFE)) ∧
    (s.flag .n = false → exec .bpl s = .fault (.memoryBounds 0xFFFF 0xFFFE)) ∧
    (s.flag .v = false → exec .bvc s = .fault (.memoryBounds 0xFFFF 0xFFFE)) ∧
    (s.flag .v = true → exec .bvs s = .fault (.memoryBounds 0xFFFF 0xFFFE))

/-! ### Frames: what an instruction leaves unchanged when exec answers a next state -/

/-- LDA, AND and EOR change A, LDX changes X and LDY changes Y, with Z, N and PC, and nothing else
(R130, R131, R132, R160, R161). -/
def Obligations.LoadAndLogicalFrame : Prop :=
  ∀ (m : Mode) (s t : State),
    (exec (.lda m) s = .next t ∨ exec (.and m) s = .next t ∨ exec (.eor m) s = .next t →
      t.x = s.x ∧ t.y = s.y ∧ SameFlagsBut [.z, .n] s t ∧ SameMemory s t ∧ SameRun s t) ∧
    (exec (.ldx m) s = .next t →
      t.a = s.a ∧ t.y = s.y ∧ SameFlagsBut [.z, .n] s t ∧ SameMemory s t ∧ SameRun s t) ∧
    (exec (.ldy m) s = .next t →
      t.a = s.a ∧ t.x = s.x ∧ SameFlagsBut [.z, .n] s t ∧ SameMemory s t ∧ SameRun s t)

/-- TAX, INX and DEX change X, and TAY, INY and DEY change Y, with Z, N and PC, and nothing else (R134, R135, R180 to R183). -/
def Obligations.IndexRegisterFrame : Prop :=
  ∀ s t : State,
    (exec .tax s = .next t ∨ exec .inx s = .next t ∨ exec .dex s = .next t →
      t.a = s.a ∧ t.y = s.y ∧ SameFlagsBut [.z, .n] s t ∧ SameMemory s t ∧ SameRun s t) ∧
    (exec .tay s = .next t ∨ exec .iny s = .next t ∨ exec .dey s = .next t →
      t.a = s.a ∧ t.x = s.x ∧ SameFlagsBut [.z, .n] s t ∧ SameMemory s t ∧ SameRun s t)

/-- STA changes the byte at its resolved address and PC only: no register and no flag (R133). -/
def Obligations.StoreFrame : Prop :=
  ∀ (m : Mode) (s t : State), s.mem.wf = true → exec (.sta m) s = .next t →
    SameRegs s t ∧ SameFlagsBut [] s t ∧ SameRun s t ∧
      ∀ a, resolve .sta m s = .ok (.addr a) → SameMemoryBut a s t

/-- ASL changes its operand (A in Accumulator mode, the byte at its resolved address in every other), C, Z, N and PC only; INC
and DEC change the byte at their resolved address, Z, N and PC only (R162, R184, R185). -/
def Obligations.ReadModifyWriteFrame : Prop :=
  ∀ (m : Mode) (s t : State), s.mem.wf = true →
    (exec (.asl m) s = .next t →
      t.x = s.x ∧ t.y = s.y ∧ SameFlagsBut [.c, .z, .n] s t ∧ SameRun s t ∧
        (resolve .asl m s = .ok .acc → SameMemory s t) ∧
        ∀ a, resolve .asl m s = .ok (.addr a) → t.a = s.a ∧ SameMemoryBut a s t) ∧
    (exec (.inc m) s = .next t →
      SameRegs s t ∧ SameFlagsBut [.z, .n] s t ∧ SameRun s t ∧
        ∀ a, resolve .inc m s = .ok (.addr a) → SameMemoryBut a s t) ∧
    (exec (.dec m) s = .next t →
      SameRegs s t ∧ SameFlagsBut [.z, .n] s t ∧ SameRun s t ∧
        ∀ a, resolve .dec m s = .ok (.addr a) → SameMemoryBut a s t)

/-- CMP, CPX and CPY change C, Z, N and PC only, and BIT changes Z, N, V and PC only: no register and no byte of memory
(R200 to R204). -/
def Obligations.CompareAndBitFrame : Prop :=
  ∀ (m : Mode) (s t : State),
    (exec (.cmp m) s = .next t ∨ exec (.cpx m) s = .next t ∨ exec (.cpy m) s = .next t →
      SameRegs s t ∧ SameFlagsBut [.c, .z, .n] s t ∧ SameMemory s t ∧ SameRun s t) ∧
    (exec (.bit m) s = .next t →
      SameRegs s t ∧ SameFlagsBut [.z, .n, .v] s t ∧ SameMemory s t ∧ SameRun s t)

/-- The branches change PC only; the flag clears change their flag only; NONE changes nothing but PC; BRK changes B and RS
(R220 to R228, R240 to R245). -/
def Obligations.ControlAndFlagFrame : Prop :=
  ∀ s t : State,
    (∀ i ∈ [Instr.bcc, .bcs, .beq, .bne, .bmi, .bpl, .bvc, .bvs], exec i s = .next t →
      SameRegs s t ∧ t.p = s.p ∧ SameMemory s t ∧ SameRun s t) ∧
    (exec .clc s = .next t → SameRegs s t ∧ SameFlagsBut [.c] s t ∧ SameMemory s t ∧ SameRun s t) ∧
    (exec .cld s = .next t → SameRegs s t ∧ SameFlagsBut [.d] s t ∧ SameMemory s t ∧ SameRun s t) ∧
    (exec .cli s = .next t → SameRegs s t ∧ SameFlagsBut [.i] s t ∧ SameMemory s t ∧ SameRun s t) ∧
    (exec .clv s = .next t → SameRegs s t ∧ SameFlagsBut [.v] s t ∧ SameMemory s t ∧ SameRun s t) ∧
    (∀ op, exec (.noneOp op) s = .next t → SameRegs s t ∧ t.p = s.p ∧ SameMemory s t ∧ SameRun s t) ∧
    (exec .brk s = .next t → SameRegs s t ∧ SameFlagsBut [.b] s t ∧ SameMemory s t ∧
      t.steps = s.steps ∧ t.fault = s.fault)

/-! ### Reset and the host interface -/

/-- The state after `new` and after `reset` (R40, R290, R291): every register 0x00, I and bit 5 the only flags set, every byte
of memory 0x00, IDLE; the model's reset state is `reset` of what `new` creates. The step counter does not exist on this
hardware, and under a bound it is 0 after `new` and after `reset` (R38, R40; log entry 12). The bit positions of P and
RS = IDLE are the spec's decisions D3 and D18 (log entries 6 and 11). -/
def Obligations.ResetStateIsAsTheSpecGives : Prop :=
  (∀ s ∈ [State.new, State.reset],
    s.a = 0x00 ∧ s.x = 0x00 ∧ s.y = 0x00 ∧ s.pc = 0x0000 ∧ s.p = 0x24 ∧
      (∀ f, s.flag f = true ↔ f = .i ∨ f = .u) ∧ (∀ k, s.mem.read k = 0x00) ∧
      s.rs = .idle ∧ s.steps = none ∧ s.fault = none) ∧
  hostReset State.new = .next State.reset ∧
  ∀ n, (State.newWith (some n)).steps = some 0 ∧
    hostReset (State.newWith (some n)) = .next (State.newWith (some n))

/-- `reset` zeroes the registers, writes the reset pattern to P, takes PC from the two bytes at 0xFFFC, low byte first, and
changes no byte of memory (R291). RS = IDLE is the spec's decision D18 (log entry 14). -/
def Obligations.ResetReadsTheVector : Prop :=
  ∀ s : State, s.rs.hostMayAct = true →
    ∃ pc : Addr, pc.toNat = (s.mem.read 0xFFFC).toNat + 256 * (s.mem.read 0xFFFD).toNat ∧
      hostReset s =
        .next { s with
                a := 0x00, x := 0x00, y := 0x00, p := 0x24, pc := pc, rs := .idle
                steps := s.steps.map fun _ => 0 }

/-- `reset` twice in succession yields the same state both times (R292). -/
def Obligations.ResetIsIdempotent : Prop :=
  ∀ s t : State, hostReset s = .next t → hostReset t = .next t

/-- `load` copies the program to 0x8000 upwards and then writes the vector's two bytes, which win where the program reaches
them, and changes nothing else; a program of more than 0x7FFF bytes is copied nowhere and leaves the core FAULTED
(R296, R297, R298). The capacity and the order are the spec's decisions D4, D10 and D12 (log entries 2, 8 and 15). -/
def Obligations.LoadCopiesTheProgramThenTheVector : Prop :=
  ∀ (s : State) (program : List Byte), s.mem.wf = true → s.rs.hostMayAct = true →
    (program.length ≤ 0x7FFF → ∃ mem, hostLoad program s = .next { s with mem := mem } ∧
      mem.read 0xFFFC = 0x00 ∧ mem.read 0xFFFD = 0x80 ∧
      (∀ k, k < program.length → 0x8000 + k ≠ 0xFFFC → 0x8000 + k ≠ 0xFFFD →
        some (mem.read (0x8000 + k)) = program[k]?) ∧
      (∀ j, j ≠ 0xFFFC → j ≠ 0xFFFD → j < 0x8000 ∨ 0x8000 + program.length ≤ j → mem.read j = s.mem.read j)) ∧
    (0x7FFF < program.length →
      hostLoad program s = .next { s with rs := .faulted, fault := some (.loadCapacity program.length) })

/-- `run` starts the run loop at the current PC with the step counter, where it exists, at 0 and changes nothing else (R294), and
`load_and_run` is load, reset and run in that order, so that the first instruction is the program's first byte (R293); for a
program that does not fit, `load` faults and neither of the others happens (R293, R297; decisions D4 and D10, log entries 2
and 8). P = 0x24 is decision D3 (log entry 6).
Resuming at the current PC is the spec's decision D19 (log entry 14). -/
def Obligations.RunStartsTheLoop : Prop :=
  ∀ (s : State) (program : List Byte), s.mem.wf = true → s.rs.hostMayAct = true →
    hostRun s = .next { s with rs := .running, steps := s.steps.map fun _ => 0 } ∧
    (program.length ≤ 0x7FFF → ∃ mem, hostLoad program s = .next { s with mem := mem } ∧
      hostLoadAndRun program s =
        .next { s with
                a := 0x00, x := 0x00, y := 0x00, p := 0x24, pc := 0x8000, mem := mem, rs := .running
                steps := s.steps.map fun _ => 0 }) ∧
    (0x7FFF < program.length → hostLoadAndRun program s =
      .next { s with rs := .faulted, fault := some (.loadCapacity program.length) })

/-- The host can do nothing while the core is RUNNING or FAULTED (R295): every operation that changes state and every read is
refused, and so nothing leaves FAULTED, a step keeping the state (R270). In the other run states each register and each byte
of M is read and written directly (R295). The table of R295 and the absorbing state are the spec's decisions D16 and D10, and
that 0xFFFF has no byte is its decision D4 (log entry 2). That a host access to 0xFFFF is refused, by the name noSuchByte, is
the model's choice (log entry 14), and so is that a step of a FAULTED core answers the same state (log entry 9). -/
def Obligations.RunningAndFaultedAdmitNoHostOperation : Prop :=
  ∀ s : State,
    (s.rs = .running ∨ s.rs = .faulted → (∀ o, hostDo o s = .refused .hostNotAllowed) ∧
      (∀ r, hostReadReg r s = .refused .hostNotAllowed) ∧ hostReadPC s = .refused .hostNotAllowed ∧
      ∀ a, hostReadMem a s = .refused .hostNotAllowed) ∧
    (s.rs = .faulted → step s = .next s) ∧
    (s.rs = .idle ∨ s.rs = .halted ∨ s.rs = .bounded →
      (hostReadReg .a s = .next s.a ∧ hostReadReg .x s = .next s.x ∧ hostReadReg .y s = .next s.y ∧
        hostReadReg .p s = .next s.p ∧ hostReadPC s = .next s.pc) ∧
      (∀ v, hostWriteReg .a v s = .next { s with a := v } ∧ hostWriteReg .x v s = .next { s with x := v } ∧
        hostWriteReg .y v s = .next { s with y := v } ∧ hostWriteReg .p v s = .next { s with p := v }) ∧
      (∀ v, hostWritePC v s = .next { s with pc := v }) ∧
      ∀ (a : Addr) (v : Byte),
        (a.toNat < Config.memSize → hostReadMem a s = .next (s.mem.read a.toNat) ∧
          (s.mem.wf = true → ∃ mem, hostWriteMem a v s = .next { s with mem := mem } ∧
            mem.read a.toNat = v ∧ ∀ k, k ≠ a.toNat → mem.read k = s.mem.read k)) ∧
        (a = 0xFFFF → hostReadMem a s = .refused (.noSuchByte a) ∧ hostWriteMem a v s = .refused (.noSuchByte a)))

/-- Calling `run` directly after `new` executes the BRK at 0x0000 and halts at once with PC = 0x0001 (R299); under a bound
that is not 0 it counts one step (R38, R102; log entry 12). -/
def Obligations.RunAfterNewHaltsAtOnce : Prop :=
  (∃ s, hostRun State.new = .next s ∧
    step s = .next { State.new with pc := 0x0001, p := 0x34, rs := .halted }) ∧
  ∀ n, n ≠ 0 → ∃ s, hostRun (State.newWith (some n)) = .next s ∧
    stepWith (some n) s =
      .next { State.newWith (some n) with pc := 0x0001, p := 0x34, rs := .halted, steps := some 1 }

/-- A branch written as its target (R105): the assembler's offset exists exactly when the target lies 126 below to 129 above
the branch, modulo 2^16, and each of the eight branches, taken with that offset, goes to the target (R220 to R228).
That nothing is added to PC is decision D6 (log entry 5). -/
def Obligations.AssembledBranchReachesItsTarget : Prop :=
  ∀ ia target : Addr,
    (∀ off, branchOffset ia target = some off → branchTarget ia off = target ∧
      ∀ s : State, s.pc = ia + 1 → s.pc.toNat < Config.memSize → s.mem.read s.pc.toNat = off →
        (s.flag .c = false → exec .bcc s = .next { s with pc := target }) ∧
        (s.flag .c = true → exec .bcs s = .next { s with pc := target }) ∧
        (s.flag .z = true → exec .beq s = .next { s with pc := target }) ∧
        (s.flag .z = false → exec .bne s = .next { s with pc := target }) ∧
        (s.flag .n = true → exec .bmi s = .next { s with pc := target }) ∧
        (s.flag .n = false → exec .bpl s = .next { s with pc := target }) ∧
        (s.flag .v = false → exec .bvc s = .next { s with pc := target }) ∧
        (s.flag .v = true → exec .bvs s = .next { s with pc := target })) ∧
    ((branchOffset ia target).isSome = true ↔ (target - ia + 126).toNat ≤ 255)
end

