-- ==== Sys2Proof/Laws/State.lean ====
section
/-! SUPPORT. What each update of the state does to each field, so that no later proof unfolds a record update. -/

namespace Sys2Proof.Machine

@[simp] theorem State.setA_a (s : State) (v : Byte) : (s.setA v).a = v := rfl
@[simp] theorem State.setA_x (s : State) (v : Byte) : (s.setA v).x = s.x := rfl
@[simp] theorem State.setA_y (s : State) (v : Byte) : (s.setA v).y = s.y := rfl
@[simp] theorem State.setA_pc (s : State) (v : Byte) : (s.setA v).pc = s.pc := rfl
@[simp] theorem State.setA_p (s : State) (v : Byte) : (s.setA v).p = s.p := rfl
@[simp] theorem State.setA_mem (s : State) (v : Byte) : (s.setA v).mem = s.mem := rfl
@[simp] theorem State.setA_rs (s : State) (v : Byte) : (s.setA v).rs = s.rs := rfl
@[simp] theorem State.setA_steps (s : State) (v : Byte) : (s.setA v).steps = s.steps := rfl
@[simp] theorem State.setA_fault (s : State) (v : Byte) : (s.setA v).fault = s.fault := rfl

@[simp] theorem State.setX_a (s : State) (v : Byte) : (s.setX v).a = s.a := rfl
@[simp] theorem State.setX_x (s : State) (v : Byte) : (s.setX v).x = v := rfl
@[simp] theorem State.setX_y (s : State) (v : Byte) : (s.setX v).y = s.y := rfl
@[simp] theorem State.setX_pc (s : State) (v : Byte) : (s.setX v).pc = s.pc := rfl
@[simp] theorem State.setX_p (s : State) (v : Byte) : (s.setX v).p = s.p := rfl
@[simp] theorem State.setX_mem (s : State) (v : Byte) : (s.setX v).mem = s.mem := rfl
@[simp] theorem State.setX_rs (s : State) (v : Byte) : (s.setX v).rs = s.rs := rfl
@[simp] theorem State.setX_steps (s : State) (v : Byte) : (s.setX v).steps = s.steps := rfl
@[simp] theorem State.setX_fault (s : State) (v : Byte) : (s.setX v).fault = s.fault := rfl

@[simp] theorem State.setY_a (s : State) (v : Byte) : (s.setY v).a = s.a := rfl
@[simp] theorem State.setY_x (s : State) (v : Byte) : (s.setY v).x = s.x := rfl
@[simp] theorem State.setY_y (s : State) (v : Byte) : (s.setY v).y = v := rfl
@[simp] theorem State.setY_pc (s : State) (v : Byte) : (s.setY v).pc = s.pc := rfl
@[simp] theorem State.setY_p (s : State) (v : Byte) : (s.setY v).p = s.p := rfl
@[simp] theorem State.setY_mem (s : State) (v : Byte) : (s.setY v).mem = s.mem := rfl
@[simp] theorem State.setY_rs (s : State) (v : Byte) : (s.setY v).rs = s.rs := rfl
@[simp] theorem State.setY_steps (s : State) (v : Byte) : (s.setY v).steps = s.steps := rfl
@[simp] theorem State.setY_fault (s : State) (v : Byte) : (s.setY v).fault = s.fault := rfl

@[simp] theorem State.setPC_a (s : State) (v : Addr) : (s.setPC v).a = s.a := rfl
@[simp] theorem State.setPC_x (s : State) (v : Addr) : (s.setPC v).x = s.x := rfl
@[simp] theorem State.setPC_y (s : State) (v : Addr) : (s.setPC v).y = s.y := rfl
@[simp] theorem State.setPC_pc (s : State) (v : Addr) : (s.setPC v).pc = v := rfl
@[simp] theorem State.setPC_p (s : State) (v : Addr) : (s.setPC v).p = s.p := rfl
@[simp] theorem State.setPC_mem (s : State) (v : Addr) : (s.setPC v).mem = s.mem := rfl
@[simp] theorem State.setPC_rs (s : State) (v : Addr) : (s.setPC v).rs = s.rs := rfl
@[simp] theorem State.setPC_steps (s : State) (v : Addr) : (s.setPC v).steps = s.steps := rfl
@[simp] theorem State.setPC_fault (s : State) (v : Addr) : (s.setPC v).fault = s.fault := rfl

@[simp] theorem State.setP_a (s : State) (v : Byte) : (s.setP v).a = s.a := rfl
@[simp] theorem State.setP_x (s : State) (v : Byte) : (s.setP v).x = s.x := rfl
@[simp] theorem State.setP_y (s : State) (v : Byte) : (s.setP v).y = s.y := rfl
@[simp] theorem State.setP_pc (s : State) (v : Byte) : (s.setP v).pc = s.pc := rfl
@[simp] theorem State.setP_p (s : State) (v : Byte) : (s.setP v).p = v := rfl
@[simp] theorem State.setP_mem (s : State) (v : Byte) : (s.setP v).mem = s.mem := rfl
@[simp] theorem State.setP_rs (s : State) (v : Byte) : (s.setP v).rs = s.rs := rfl
@[simp] theorem State.setP_steps (s : State) (v : Byte) : (s.setP v).steps = s.steps := rfl
@[simp] theorem State.setP_fault (s : State) (v : Byte) : (s.setP v).fault = s.fault := rfl

@[simp] theorem State.setMem_a (s : State) (m : Memory) : (s.setMem m).a = s.a := rfl
@[simp] theorem State.setMem_x (s : State) (m : Memory) : (s.setMem m).x = s.x := rfl
@[simp] theorem State.setMem_y (s : State) (m : Memory) : (s.setMem m).y = s.y := rfl
@[simp] theorem State.setMem_pc (s : State) (m : Memory) : (s.setMem m).pc = s.pc := rfl
@[simp] theorem State.setMem_p (s : State) (m : Memory) : (s.setMem m).p = s.p := rfl
@[simp] theorem State.setMem_mem (s : State) (m : Memory) : (s.setMem m).mem = m := rfl
@[simp] theorem State.setMem_rs (s : State) (m : Memory) : (s.setMem m).rs = s.rs := rfl
@[simp] theorem State.setMem_steps (s : State) (m : Memory) : (s.setMem m).steps = s.steps := rfl
@[simp] theorem State.setMem_fault (s : State) (m : Memory) : (s.setMem m).fault = s.fault := rfl

@[simp] theorem State.setRS_a (s : State) (r : RunState) : (s.setRS r).a = s.a := rfl
@[simp] theorem State.setRS_x (s : State) (r : RunState) : (s.setRS r).x = s.x := rfl
@[simp] theorem State.setRS_y (s : State) (r : RunState) : (s.setRS r).y = s.y := rfl
@[simp] theorem State.setRS_pc (s : State) (r : RunState) : (s.setRS r).pc = s.pc := rfl
@[simp] theorem State.setRS_p (s : State) (r : RunState) : (s.setRS r).p = s.p := rfl
@[simp] theorem State.setRS_mem (s : State) (r : RunState) : (s.setRS r).mem = s.mem := rfl
@[simp] theorem State.setRS_rs (s : State) (r : RunState) : (s.setRS r).rs = r := rfl
@[simp] theorem State.setRS_steps (s : State) (r : RunState) : (s.setRS r).steps = s.steps := rfl
@[simp] theorem State.setRS_fault (s : State) (r : RunState) : (s.setRS r).fault = s.fault := rfl

@[simp] theorem State.setSteps_a (s : State) (n : Option Nat) : (s.setSteps n).a = s.a := rfl
@[simp] theorem State.setSteps_x (s : State) (n : Option Nat) : (s.setSteps n).x = s.x := rfl
@[simp] theorem State.setSteps_y (s : State) (n : Option Nat) : (s.setSteps n).y = s.y := rfl
@[simp] theorem State.setSteps_pc (s : State) (n : Option Nat) : (s.setSteps n).pc = s.pc := rfl
@[simp] theorem State.setSteps_p (s : State) (n : Option Nat) : (s.setSteps n).p = s.p := rfl
@[simp] theorem State.setSteps_mem (s : State) (n : Option Nat) : (s.setSteps n).mem = s.mem := rfl
@[simp] theorem State.setSteps_rs (s : State) (n : Option Nat) : (s.setSteps n).rs = s.rs := rfl
@[simp] theorem State.setSteps_steps (s : State) (n : Option Nat) : (s.setSteps n).steps = n := rfl
@[simp] theorem State.setSteps_fault (s : State) (n : Option Nat) : (s.setSteps n).fault = s.fault := rfl

@[simp] theorem State.countStep_a (s : State) : s.countStep.a = s.a := rfl
@[simp] theorem State.countStep_x (s : State) : s.countStep.x = s.x := rfl
@[simp] theorem State.countStep_y (s : State) : s.countStep.y = s.y := rfl
@[simp] theorem State.countStep_pc (s : State) : s.countStep.pc = s.pc := rfl
@[simp] theorem State.countStep_p (s : State) : s.countStep.p = s.p := rfl
@[simp] theorem State.countStep_mem (s : State) : s.countStep.mem = s.mem := rfl
@[simp] theorem State.countStep_rs (s : State) : s.countStep.rs = s.rs := rfl
@[simp] theorem State.countStep_steps (s : State) : s.countStep.steps = (s.steps.map (· + 1)) := rfl
@[simp] theorem State.countStep_fault (s : State) : s.countStep.fault = s.fault := rfl

@[simp] theorem State.zeroSteps_a (s : State) : s.zeroSteps.a = s.a := rfl
@[simp] theorem State.zeroSteps_x (s : State) : s.zeroSteps.x = s.x := rfl
@[simp] theorem State.zeroSteps_y (s : State) : s.zeroSteps.y = s.y := rfl
@[simp] theorem State.zeroSteps_pc (s : State) : s.zeroSteps.pc = s.pc := rfl
@[simp] theorem State.zeroSteps_p (s : State) : s.zeroSteps.p = s.p := rfl
@[simp] theorem State.zeroSteps_mem (s : State) : s.zeroSteps.mem = s.mem := rfl
@[simp] theorem State.zeroSteps_rs (s : State) : s.zeroSteps.rs = s.rs := rfl
@[simp] theorem State.zeroSteps_steps (s : State) : s.zeroSteps.steps = (s.steps.map fun _ => 0) := rfl
@[simp] theorem State.zeroSteps_fault (s : State) : s.zeroSteps.fault = s.fault := rfl

@[simp] theorem State.setFault_a (s : State) (f : Option Fault) : (s.setFault f).a = s.a := rfl
@[simp] theorem State.setFault_x (s : State) (f : Option Fault) : (s.setFault f).x = s.x := rfl
@[simp] theorem State.setFault_y (s : State) (f : Option Fault) : (s.setFault f).y = s.y := rfl
@[simp] theorem State.setFault_pc (s : State) (f : Option Fault) : (s.setFault f).pc = s.pc := rfl
@[simp] theorem State.setFault_p (s : State) (f : Option Fault) : (s.setFault f).p = s.p := rfl
@[simp] theorem State.setFault_mem (s : State) (f : Option Fault) : (s.setFault f).mem = s.mem := rfl
@[simp] theorem State.setFault_rs (s : State) (f : Option Fault) : (s.setFault f).rs = s.rs := rfl
@[simp] theorem State.setFault_steps (s : State) (f : Option Fault) : (s.setFault f).steps = s.steps := rfl
@[simp] theorem State.setFault_fault (s : State) (f : Option Fault) : (s.setFault f).fault = f := rfl

@[simp] theorem State.advance_a (s : State) (m : Mode) : (s.advance m).a = s.a := rfl
@[simp] theorem State.advance_x (s : State) (m : Mode) : (s.advance m).x = s.x := rfl
@[simp] theorem State.advance_y (s : State) (m : Mode) : (s.advance m).y = s.y := rfl
@[simp] theorem State.advance_pc (s : State) (m : Mode) : (s.advance m).pc = s.pc + BitVec.ofNat 16 (m.length - 1) := rfl
@[simp] theorem State.advance_p (s : State) (m : Mode) : (s.advance m).p = s.p := rfl
@[simp] theorem State.advance_mem (s : State) (m : Mode) : (s.advance m).mem = s.mem := rfl
@[simp] theorem State.advance_rs (s : State) (m : Mode) : (s.advance m).rs = s.rs := rfl
@[simp] theorem State.advance_steps (s : State) (m : Mode) : (s.advance m).steps = s.steps := rfl
@[simp] theorem State.advance_fault (s : State) (m : Mode) : (s.advance m).fault = s.fault := rfl

@[simp] theorem State.enter_a (s : State) : s.enter.a = s.a := rfl
@[simp] theorem State.enter_x (s : State) : s.enter.x = s.x := rfl
@[simp] theorem State.enter_y (s : State) : s.enter.y = s.y := rfl
@[simp] theorem State.enter_pc (s : State) : s.enter.pc = s.pc + 1#16 := rfl
@[simp] theorem State.enter_p (s : State) : s.enter.p = s.p := rfl
@[simp] theorem State.enter_mem (s : State) : s.enter.mem = s.mem := rfl
@[simp] theorem State.enter_rs (s : State) : s.enter.rs = s.rs := rfl
@[simp] theorem State.enter_steps (s : State) : s.enter.steps = s.steps := rfl
@[simp] theorem State.enter_fault (s : State) : s.enter.fault = s.fault := rfl

@[simp] theorem State.withZN_a (s : State) (v : Byte) : (s.withZN v).a = s.a := rfl
@[simp] theorem State.withZN_x (s : State) (v : Byte) : (s.withZN v).x = s.x := rfl
@[simp] theorem State.withZN_y (s : State) (v : Byte) : (s.withZN v).y = s.y := rfl
@[simp] theorem State.withZN_pc (s : State) (v : Byte) : (s.withZN v).pc = s.pc := rfl
@[simp] theorem State.withZN_p (s : State) (v : Byte) : (s.withZN v).p = setZN v s.p := rfl
@[simp] theorem State.withZN_mem (s : State) (v : Byte) : (s.withZN v).mem = s.mem := rfl
@[simp] theorem State.withZN_rs (s : State) (v : Byte) : (s.withZN v).rs = s.rs := rfl
@[simp] theorem State.withZN_steps (s : State) (v : Byte) : (s.withZN v).steps = s.steps := rfl
@[simp] theorem State.withZN_fault (s : State) (v : Byte) : (s.withZN v).fault = s.fault := rfl

@[simp] theorem State.takeFault_a (s : State) (e : Fault) : (s.takeFault e).a = s.a := rfl
@[simp] theorem State.takeFault_x (s : State) (e : Fault) : (s.takeFault e).x = s.x := rfl
@[simp] theorem State.takeFault_y (s : State) (e : Fault) : (s.takeFault e).y = s.y := rfl
@[simp] theorem State.takeFault_pc (s : State) (e : Fault) : (s.takeFault e).pc = s.pc := rfl
@[simp] theorem State.takeFault_p (s : State) (e : Fault) : (s.takeFault e).p = s.p := rfl
@[simp] theorem State.takeFault_mem (s : State) (e : Fault) : (s.takeFault e).mem = s.mem := rfl
@[simp] theorem State.takeFault_rs (s : State) (e : Fault) : (s.takeFault e).rs = .faulted := rfl
@[simp] theorem State.takeFault_steps (s : State) (e : Fault) : (s.takeFault e).steps = s.steps := rfl
@[simp] theorem State.takeFault_fault (s : State) (e : Fault) : (s.takeFault e).fault = some e := rfl

@[simp] theorem State.flag_eq (s : State) (f : Flag) : s.flag f = getFlag f s.p := rfl

end Sys2Proof.Machine
end

