-- ==== Sys2Proof/Laws/Flags.lean ====
section
/-! SUPPORT. What reading a flag gives after each flag computation. -/

namespace Sys2Proof.Machine

theorem Flag.pos_lt (f : Flag) : f.pos < 8 := by cases f <;> decide

theorem Flag.pos_injective {f g : Flag} (h : f.pos = g.pos) : f = g := by
  cases f <;> cases g <;> first | rfl | exact absurd h (by decide)

/-- A flag just written reads as written. -/
@[simp] theorem getFlag_putFlag_same (f : Flag) (on : Bool) (p : Byte) : getFlag f (putFlag f on p) = on := by
  have := f.pos_lt
  cases on <;> simp [getFlag, putFlag, this]

/-- Writing a flag leaves every other flag as it was. -/
theorem getFlag_putFlag_other {f g : Flag} (h : g ≠ f) (on : Bool) (p : Byte) :
    getFlag g (putFlag f on p) = getFlag g p := by
  have hp : f.pos ≠ g.pos := fun e => h (Flag.pos_injective e.symm)
  have hg := g.pos_lt
  cases on <;> simp [getFlag, putFlag, hp.symm, hg]

/-- Two status bytes with the same flags are the same. -/
theorem flags_ext {p q : Byte} (h : ∀ f, getFlag f p = getFlag f q) : p = q := by
  have hc := h .c
  have hz := h .z
  have hi := h .i
  have hd := h .d
  have hb := h .b
  have hu := h .u
  have hv := h .v
  have hn := h .n
  simp only [getFlag, Flag.pos] at hc hz hi hd hb hu hv hn
  apply BitVec.eq_of_getLsbD_eq
  intro k hk
  interval_cases k <;> assumption

@[simp] theorem getFlag_z_setZN (v p : Byte) : getFlag .z (setZN v p) = (v == 0x00#8) := by
  simp [setZN, getFlag_putFlag_other]

@[simp] theorem getFlag_n_setZN (v p : Byte) : getFlag .n (setZN v p) = v.getLsbD 7 := by
  simp [setZN]

/-- setZN leaves every flag but Z and N as it was. -/
theorem getFlag_setZN_other {f : Flag} (hz : f ≠ .z) (hn : f ≠ .n) (v p : Byte) :
    getFlag f (setZN v p) = getFlag f p := by
  simp [setZN, getFlag_putFlag_other hn, getFlag_putFlag_other hz]

end Sys2Proof.Machine
end

