-- ==== Sys2Proof/Laws/Memory.lean ====
section
/-! SUPPORT. The laws of M: reading after writing, and that every memory operation keeps the canonical form. -/

namespace Sys2Proof.Machine

theorem Memory.read_consEntry (k : Nat) (v : Byte) (m : Memory) (j : Nat) (h : ∀ i, i ≤ k → m.read i = unlistedByte) :
    (Memory.consEntry k v m).read j = if k = j then v else m.read j := by
  unfold Memory.consEntry
  split
  · next hv =>
    split
    · next hk => rw [hv, h j (by omega)]
    · rfl
  · rfl

/-- Below the first address of a canonical memory every byte reads as unlisted. -/
theorem Memory.read_below {m : Memory} {lo k : Nat} (h : m.wfFrom lo = true) (hk : k < lo) : m.read k = unlistedByte := by
  induction m generalizing lo with
  | nil => rfl
  | cons e rest ih =>
    obtain ⟨a, v⟩ := e
    simp only [Memory.wfFrom, Bool.and_eq_true, decide_eq_true_eq] at h
    obtain ⟨⟨⟨hlo, -⟩, -⟩, hrest⟩ := h
    have : a ≠ k := by omega
    simp only [Memory.read, this, if_false]
    exact ih hrest (by omega)

theorem Memory.wfFrom_mono {m : Memory} {lo lo' : Nat} (h : m.wfFrom lo = true) (hl : lo' ≤ lo) : m.wfFrom lo' = true := by
  cases m with
  | nil => rfl
  | cons e rest =>
    obtain ⟨a, v⟩ := e
    simp only [Memory.wfFrom, Bool.and_eq_true, decide_eq_true_eq] at h ⊢
    obtain ⟨⟨⟨hlo, h2⟩, h3⟩, h4⟩ := h
    exact ⟨⟨⟨by omega, h2⟩, h3⟩, h4⟩

theorem Memory.wfFrom_consEntry {m : Memory} {lo k : Nat} {v : Byte} (h : m.wfFrom (k + 1) = true) (hlo : lo ≤ k)
    (hk : k < Config.memSize) : (Memory.consEntry k v m).wfFrom lo = true := by
  unfold Memory.consEntry
  split
  · exact Memory.wfFrom_mono h (by omega)
  · next hv => simp [Memory.wfFrom, hlo, hk, hv, h]

theorem Memory.wfFrom_write {m : Memory} {lo k : Nat} (v : Byte) (h : m.wfFrom lo = true) (hlo : lo ≤ k)
    (hk : k < Config.memSize) : (m.write k v).wfFrom lo = true := by
  induction m generalizing lo with
  | nil => exact Memory.wfFrom_consEntry rfl hlo hk
  | cons e rest ih =>
    obtain ⟨a, w⟩ := e
    simp only [Memory.wfFrom, Bool.and_eq_true, decide_eq_true_eq] at h
    obtain ⟨⟨⟨h1, h2⟩, h3⟩, h4⟩ := h
    unfold Memory.write
    split
    · next hka =>
      refine Memory.wfFrom_consEntry ?_ hlo hk
      simp only [Memory.wfFrom, Bool.and_eq_true, decide_eq_true_eq]
      exact ⟨⟨⟨by omega, h2⟩, h3⟩, h4⟩
    · split
      · next hka =>
        subst hka
        exact Memory.wfFrom_consEntry h4 h1 hk
      · simp only [Memory.wfFrom, Bool.and_eq_true, decide_eq_true_eq]
        exact ⟨⟨⟨h1, h2⟩, h3⟩, ih h4 (by omega)⟩

/-- A write to an address that has a byte keeps the canonical form. -/
theorem Memory.wf_write {m : Memory} (h : m.wf = true) {k : Nat} (hk : k < Config.memSize) (v : Byte) :
    (m.write k v).wf = true :=
  Memory.wfFrom_write v h (Nat.zero_le k) hk

/-- A write of one address leaves every other address as it was, and the address written reads as written. -/
theorem Memory.read_write_from {m : Memory} {lo : Nat} (h : m.wfFrom lo = true) (k : Nat) (v : Byte) (j : Nat) :
    (m.write k v).read j = if k = j then v else m.read j := by
  induction m generalizing lo with
  | nil => exact Memory.read_consEntry k v [] j fun _ _ => rfl
  | cons e rest ih =>
    obtain ⟨a, w⟩ := e
    have h' := h
    simp only [Memory.wfFrom, Bool.and_eq_true, decide_eq_true_eq] at h
    obtain ⟨⟨⟨h1, h2⟩, h3⟩, h4⟩ := h
    unfold Memory.write
    split
    · next hka =>
      refine Memory.read_consEntry k v _ j fun i hi => ?_
      have : a ≠ i := by omega
      simp only [Memory.read, this, if_false]
      exact Memory.read_below h4 (by omega)
    · split
      · next hka =>
        subst hka
        rw [Memory.read_consEntry k v rest j fun i hi => Memory.read_below h4 (by omega)]
        simp only [Memory.read]
        split <;> rfl
      · next hka =>
        by_cases hj : a = j
        · subst hj
          have : k ≠ a := by omega
          simp [Memory.read, this]
        · simp only [Memory.read, hj, if_false]
          exact ih h4

/-- Reading a canonical memory after a write. -/
theorem Memory.read_write {m : Memory} (h : m.wf = true) (k : Nat) (v : Byte) (j : Nat) :
    (m.write k v).read j = if k = j then v else m.read j :=
  Memory.read_write_from h k v j

/-- The address written reads as written, in every list, canonical or not. -/
theorem Memory.read_write_same (m : Memory) (k : Nat) (v : Byte) (h : m.wf = true) : (m.write k v).read k = v := by
  simp [Memory.read_write h]

/-- The memory of reset is canonical. -/
theorem Memory.wf_reset : State.reset.mem.wf = true := rfl

/-- A canonical memory is determined by what it reads as. -/
theorem Memory.ext_from {m m' : Memory} {lo : Nat} (h : m.wfFrom lo = true) (h' : m'.wfFrom lo = true)
    (hr : ∀ k, m.read k = m'.read k) : m = m' := by
  induction m generalizing m' lo with
  | nil =>
    cases m' with
    | nil => rfl
    | cons e rest =>
      obtain ⟨a, v⟩ := e
      simp only [Memory.wfFrom, Bool.and_eq_true, decide_eq_true_eq] at h'
      have := hr a
      simp only [Memory.read, if_true] at this
      exact absurd this.symm h'.1.2
  | cons e rest ih =>
    obtain ⟨a, v⟩ := e
    have hw := h
    simp only [Memory.wfFrom, Bool.and_eq_true, decide_eq_true_eq] at h
    obtain ⟨⟨⟨h1, h2⟩, h3⟩, h4⟩ := h
    cases m' with
    | nil =>
      have := hr a
      simp only [Memory.read, if_true] at this
      exact absurd this h3
    | cons e' rest' =>
      obtain ⟨b, w⟩ := e'
      have hw' := h'
      simp only [Memory.wfFrom, Bool.and_eq_true, decide_eq_true_eq] at h'
      obtain ⟨⟨⟨h1', h2'⟩, h3'⟩, h4'⟩ := h'
      have hab : a = b := by
        rcases Nat.lt_trichotomy a b with hlt | heq | hgt
        · have := hr a
          have hne : b ≠ a := by omega
          simp only [Memory.read, if_true, hne, if_false, Memory.read_below h4' (show a < b + 1 by omega)] at this
          exact absurd this h3
        · exact heq
        · have := hr b
          have hne : a ≠ b := by omega
          simp only [Memory.read, if_true, hne, if_false, Memory.read_below h4 (show b < a + 1 by omega)] at this
          exact absurd this.symm h3'
      subst hab
      have hvw : v = w := by simpa [Memory.read] using hr a
      subst hvw
      have : rest = rest' := by
        refine ih h4 h4' fun k => ?_
        by_cases hk : a = k
        · subst hk
          rw [Memory.read_below h4 (by omega), Memory.read_below h4' (by omega)]
        · simpa [Memory.read, hk] using hr k
      rw [this]

/-- Equal memories are equal data. -/
theorem Memory.ext {m m' : Memory} (h : m.wf = true) (h' : m'.wf = true) (hr : ∀ k, m.read k = m'.read k) : m = m' :=
  Memory.ext_from h h' hr

/-- Placing bytes keeps the canonical form. -/
theorem Memory.wf_placeBytes {m : Memory} (h : m.wf = true) (a : Addr) (bs : List Byte) : (placeBytes m a bs).wf = true := by
  induction bs generalizing m a with
  | nil => exact h
  | cons b rest ih =>
    unfold placeBytes
    split
    · next hb => exact ih (Memory.wf_write h (by simpa [inBounds] using hb) b) _
    · exact ih h _

end Sys2Proof.Machine
end

