-- ==== Sys2Proof/Laws/Ops.lean ====
section
/-! SUPPORT. One lemma for each shared operation that says everything it can answer; later proofs cite these and do not
unfold the operation. -/

namespace Sys2Proof.Machine

/-! ### The memory primitives -/

theorem inBounds_iff (a : Addr) : inBounds a = true ↔ a.toNat < Config.memSize := by simp [inBounds]

/-- 0xFFFF is the only address that has no byte. -/
theorem not_inBounds_iff (a : Addr) : inBounds a = false ↔ a = 0xFFFF#16 := by
  rw [← Bool.not_eq_true, inBounds_iff, Config.memSize, BitVec.toNat_eq]
  have : (0xFFFF#16).toNat = 65535 := rfl
  omega

theorem memReadBy_ok {s : State} {ia a : Addr} {v : Byte} :
    memReadBy s ia a = .ok v ↔ a.toNat < Config.memSize ∧ s.mem.read a.toNat = v := by
  unfold memReadBy
  split
  · next h => simp [(inBounds_iff a).1 h]
  · next h => simp [mt (inBounds_iff a).2 h]

theorem memReadBy_error {s : State} {ia a : Addr} {f : Fault} :
    memReadBy s ia a = .error f ↔ a = 0xFFFF#16 ∧ f = .memoryBounds a ia := by
  unfold memReadBy
  split
  · next h =>
    have : a ≠ 0xFFFF#16 := fun e => by simp [(not_inBounds_iff a).2 e] at h
    simp [this]
  · next h => simp [(not_inBounds_iff a).1 (by simpa using h), eq_comm]

theorem memRead_ok {s : State} {a : Addr} {v : Byte} :
    memRead s a = .ok v ↔ a.toNat < Config.memSize ∧ s.mem.read a.toNat = v := memReadBy_ok

theorem memRead_error {s : State} {a : Addr} {f : Fault} :
    memRead s a = .error f ↔ a = 0xFFFF#16 ∧ f = .memoryBounds a s.ia := memReadBy_error

theorem memRead_of_lt {s : State} {a : Addr} (h : a.toNat < Config.memSize) :
    memRead s a = .ok (s.mem.read a.toNat) := memRead_ok.2 ⟨h, rfl⟩

theorem memWrite_ok {s t : State} {a : Addr} {v : Byte} :
    memWrite s a v = .ok t ↔ a.toNat < Config.memSize ∧ s.setMem (s.mem.write a.toNat v) = t := by
  unfold memWrite
  split
  · next h => simp [(inBounds_iff a).1 h]
  · next h => simp [mt (inBounds_iff a).2 h]

theorem memWrite_error {s : State} {a : Addr} {v : Byte} {f : Fault} :
    memWrite s a v = .error f ↔ a = 0xFFFF#16 ∧ f = .memoryBounds a s.ia := by
  unfold memWrite
  split
  · next h =>
    have : a ≠ 0xFFFF#16 := fun e => by simp [(not_inBounds_iff a).2 e] at h
    simp [this]
  · next h => simp [(not_inBounds_iff a).1 (by simpa using h), eq_comm]

theorem memWrite_of_lt {s : State} {a : Addr} (h : a.toNat < Config.memSize) (v : Byte) :
    memWrite s a v = .ok (s.setMem (s.mem.write a.toNat v)) := memWrite_ok.2 ⟨h, rfl⟩

theorem memRead16_ok {s : State} {a w : Addr} :
    memRead16 s a = .ok w ↔ a.toNat < Config.memSize ∧ (a + 1#16).toNat < Config.memSize ∧
      word16 (s.mem.read (a + 1#16).toNat) (s.mem.read a.toNat) = w := by
  unfold memRead16
  constructor
  · intro h
    split at h
    · cases h
    · next lo hlo =>
      obtain ⟨h1, rfl⟩ := memRead_ok.1 hlo
      split at h
      · cases h
      · next hi hhi =>
        obtain ⟨h2, rfl⟩ := memRead_ok.1 hhi
        cases h
        exact ⟨h1, h2, rfl⟩
  · rintro ⟨h1, h2, rfl⟩
    rw [memRead_of_lt h1, memRead_of_lt h2]

theorem memRead16_error {s : State} {a : Addr} {f : Fault} (h : memRead16 s a = .error f) :
    f = .memoryBounds 0xFFFF#16 s.ia := by
  unfold memRead16 at h
  split at h
  · next e he =>
    obtain ⟨rfl, rfl⟩ := memRead_error.1 he
    simpa using h.symm
  · split at h
    · next e he =>
      obtain ⟨hb, rfl⟩ := memRead_error.1 he
      rw [hb] at h
      exact (Except.error.inj h).symm
    · cases h

/-! ### The address resolver -/

theorem readZpPtr_error {w : ZpPtrWrap} {s : State} {p : Byte} {f : Fault} (h : readZpPtr w s p = .error f) :
    f = .memoryBounds 0xFFFF#16 s.ia := by
  unfold readZpPtr at h
  split at h
  · next e he =>
    obtain ⟨hb, rfl⟩ := memRead_error.1 he
    rw [hb] at h
    exact (Except.error.inj h).symm
  · split at h
    · next e he =>
      obtain ⟨hb, rfl⟩ := memRead_error.1 he
      rw [hb] at h
      exact (Except.error.inj h).symm
    · cases h

theorem fromByte_error {s : State} {g : Byte → Except Fault Addr} {f : Fault} (h : fromByte s g = .error f)
    (hg : ∀ b e, g b = .error e → e = .memoryBounds 0xFFFF#16 s.ia) : f = .memoryBounds 0xFFFF#16 s.ia := by
  unfold fromByte at h
  split at h
  · next e he =>
    obtain ⟨hb, rfl⟩ := memRead_error.1 he
    rw [hb] at h
    exact (Except.error.inj h).symm
  · split at h
    · next e he =>
      rw [hg _ _ he] at h
      simpa using h.symm
    · cases h

theorem fromWord_error {s : State} {g : Addr → Addr} {f : Fault} (h : fromWord s g = .error f) :
    f = .memoryBounds 0xFFFF#16 s.ia := by
  unfold fromWord at h
  split at h
  · next e he =>
    rw [memRead16_error he] at h
    simpa using h.symm
  · cases h

/-- A fault of the resolver is a bounds fault at 0xFFFF, or the usage error of a mode it has no rule for. -/
theorem resolveWith_error {w : ZpPtrWrap} {k : Kind} {m : Mode} {s : State} {f : Fault}
    (h : resolveWith w k m s = .error f) :
    f = .memoryBounds 0xFFFF#16 s.ia ∨ (m.resolvable = false ∧ f = .usageError m k) := by
  cases m
  case immediate => cases h
  case accumulator => cases h
  case zeroPage => exact .inl (fromByte_error (g := fun b => .ok (zext16 b)) h (fun _ _ e => by cases e))
  case zeroPageX => exact .inl (fromByte_error (g := fun b => .ok (zext16 (b + s.x))) h (fun _ _ e => by cases e))
  case zeroPageY => exact .inl (fromByte_error (g := fun b => .ok (zext16 (b + s.y))) h (fun _ _ e => by cases e))
  case absolute => exact .inl (fromWord_error h)
  case absoluteX => exact .inl (fromWord_error h)
  case absoluteY => exact .inl (fromWord_error h)
  case indirectX => exact .inl (fromByte_error h (fun _ _ e => readZpPtr_error e))
  case indirectY =>
    refine .inl (fromByte_error h (fun b e he => ?_))
    unfold indexed at he
    split at he
    · next e' he' =>
      rw [readZpPtr_error he'] at he
      simpa using he.symm
    · cases he
  case indirect => cases h; exact .inr ⟨rfl, rfl⟩
  case implied => cases h; exact .inr ⟨rfl, rfl⟩
  case relative => cases h; exact .inr ⟨rfl, rfl⟩
  case noneAddressing => cases h; exact .inr ⟨rfl, rfl⟩

/-- The accumulator sentinel comes from the Accumulator mode alone. -/
theorem resolveWith_acc {w : ZpPtrWrap} {k : Kind} {m : Mode} {s : State} :
    resolveWith w k m s = .ok .acc ↔ m = .accumulator := by
  constructor
  · intro h
    cases m <;> first
      | rfl
      | cases h
      | (simp only [resolveWith, fromByte, fromWord] at h
         repeat' split at h
         all_goals cases h)
  · rintro rfl
    rfl

theorem resolveAddr_ok {k : Kind} {m : Mode} {s : State} {a : Addr} :
    resolveAddr k m s = .ok a ↔ resolve k m s = .ok (.addr a) := by
  unfold resolveAddr
  cases resolve k m s with
  | error e => simp
  | ok t => cases t <;> simp

theorem resolveAddr_error {k : Kind} {m : Mode} {s : State} {f : Fault} (h : resolveAddr k m s = .error f) :
    f = .memoryBounds 0xFFFF#16 s.ia ∨ ((m.resolvable = false ∨ m = .accumulator) ∧ f = .usageError m k) := by
  unfold resolveAddr at h
  split at h
  · next e he =>
    cases h
    rcases resolveWith_error he with h1 | ⟨h1, h2⟩
    · exact .inl h1
    · exact .inr ⟨.inl h1, h2⟩
  · next he =>
    cases h
    exact .inr ⟨.inr (resolveWith_acc.1 he), rfl⟩
  · cases h

theorem readOperand_ok {k : Kind} {m : Mode} {s : State} {v : Byte} :
    readOperand k m s = .ok v ↔
      ∃ a, resolve k m s = .ok (.addr a) ∧ a.toNat < Config.memSize ∧ s.mem.read a.toNat = v := by
  unfold readOperand
  constructor
  · intro h
    split at h
    · cases h
    · next a ha => exact ⟨a, resolveAddr_ok.1 ha, memRead_ok.1 h⟩
  · rintro ⟨a, ha, hv⟩
    rw [resolveAddr_ok.2 ha]
    exact memRead_ok.2 hv

theorem readOperand_error {k : Kind} {m : Mode} {s : State} {f : Fault} (h : readOperand k m s = .error f) :
    f = .memoryBounds 0xFFFF#16 s.ia ∨ ((m.resolvable = false ∨ m = .accumulator) ∧ f = .usageError m k) := by
  unfold readOperand at h
  split at h
  · next e he =>
    cases h
    exact resolveAddr_error he
  · obtain ⟨hb, rfl⟩ := memRead_error.1 h
    exact .inl (by rw [hb])

/-! ### The shapes of executors -/

theorem onOperand_next {k : Kind} {m : Mode} {s t : State} {f : Byte → State} :
    onOperand k m s f = .next t ↔ ∃ v, readOperand k m s = .ok v ∧ (f v).advance m = t := by
  unfold onOperand
  cases readOperand k m s <;> simp

theorem onOperand_fault {k : Kind} {m : Mode} {s : State} {f : Byte → State} {e : Fault} :
    onOperand k m s f = .fault e ↔ readOperand k m s = .error e := by
  unfold onOperand
  cases readOperand k m s <;> simp

theorem onOperand_not_refused {k : Kind} {m : Mode} {s : State} {f : Byte → State} {r : Refusal} :
    onOperand k m s f ≠ .refused r := by
  unfold onOperand
  cases readOperand k m s <;> simp

theorem storeOperand_next {k : Kind} {m : Mode} {s t : State} {v : Byte} :
    storeOperand k m s v = .next t ↔
      ∃ a, resolve k m s = .ok (.addr a) ∧ a.toNat < Config.memSize ∧
        (s.setMem (s.mem.write a.toNat v)).advance m = t := by
  unfold storeOperand
  constructor
  · intro h
    split at h
    · cases h
    · next a ha =>
      split at h
      · cases h
      · next u hu =>
        cases h
        obtain ⟨h1, rfl⟩ := memWrite_ok.1 hu
        exact ⟨a, resolveAddr_ok.1 ha, h1, rfl⟩
  · rintro ⟨a, ha, h1, rfl⟩
    rw [resolveAddr_ok.2 ha]
    simp [memWrite_of_lt h1]

theorem storeOperand_fault {k : Kind} {m : Mode} {s : State} {v : Byte} {f : Fault}
    (h : storeOperand k m s v = .fault f) :
    f = .memoryBounds 0xFFFF#16 s.ia ∨ ((m.resolvable = false ∨ m = .accumulator) ∧ f = .usageError m k) := by
  unfold storeOperand at h
  split at h
  · next e he =>
    cases h
    exact resolveAddr_error he
  · split at h
    · next e he =>
      cases h
      obtain ⟨hb, rfl⟩ := memWrite_error.1 he
      exact .inl (by rw [hb])
    · cases h

theorem storeOperand_not_refused {k : Kind} {m : Mode} {s : State} {v : Byte} {r : Refusal} :
    storeOperand k m s v ≠ .refused r := by
  unfold storeOperand
  intro h
  repeat' split at h
  all_goals cases h

theorem modifyOperand_next {k : Kind} {m : Mode} {s t : State} {f : Byte → Byte} {g : Byte → Byte → Byte} :
    modifyOperand k m s f g = .next t ↔
      ∃ a, resolve k m s = .ok (.addr a) ∧ a.toNat < Config.memSize ∧
        ((s.setMem (s.mem.write a.toNat (f (s.mem.read a.toNat)))).setP (g (s.mem.read a.toNat) s.p)).advance m = t := by
  unfold modifyOperand
  constructor
  · intro h
    split at h
    · cases h
    · next a ha =>
      split at h
      · cases h
      · next v hv =>
        obtain ⟨h1, rfl⟩ := memRead_ok.1 hv
        split at h
        · cases h
        · next u hu =>
          cases h
          obtain ⟨-, rfl⟩ := memWrite_ok.1 hu
          exact ⟨a, resolveAddr_ok.1 ha, h1, rfl⟩
  · rintro ⟨a, ha, h1, rfl⟩
    rw [resolveAddr_ok.2 ha]
    simp [memRead_of_lt h1, memWrite_of_lt h1]

theorem modifyOperand_fault {k : Kind} {m : Mode} {s : State} {f : Byte → Byte} {g : Byte → Byte → Byte} {e : Fault}
    (h : modifyOperand k m s f g = .fault e) :
    e = .memoryBounds 0xFFFF#16 s.ia ∨ ((m.resolvable = false ∨ m = .accumulator) ∧ e = .usageError m k) := by
  unfold modifyOperand at h
  split at h
  · next e' he =>
    cases h
    exact resolveAddr_error he
  · split at h
    · next e' he =>
      cases h
      obtain ⟨hb, rfl⟩ := memRead_error.1 he
      exact .inl (by rw [hb])
    · split at h
      · next e' he =>
        cases h
        obtain ⟨hb, rfl⟩ := memWrite_error.1 he
        exact .inl (by rw [hb])
      · cases h

theorem modifyOperand_not_refused {k : Kind} {m : Mode} {s : State} {f : Byte → Byte} {g : Byte → Byte → Byte}
    {r : Refusal} : modifyOperand k m s f g ≠ .refused r := by
  unfold modifyOperand
  intro h
  repeat' split at h
  all_goals cases h

@[simp] theorem onImplied_eq (t : State) : onImplied t = .next t := by
  simp [onImplied, State.advance, Mode.length, State.setPC]

theorem branch_next {c : Bool} {s t : State} :
    branch c s = .next t ↔
      (c = true ∧ s.pc.toNat < Config.memSize ∧ s.setPC (s.pc + 1#16 + sext16 (s.mem.read s.pc.toNat)) = t) ∨
        (c = false ∧ s.setPC (s.pc + 1#16) = t) := by
  unfold branch
  cases c with
  | false => simp [State.advance, Mode.length]
  | true =>
    by_cases h : s.pc.toNat < Config.memSize
    · simp [memRead_of_lt h, h]
    · have hb : s.pc = 0xFFFF#16 := by simp only [Config.memSize] at h; bv_omega
      simp [memRead_error.2 ⟨hb, rfl⟩, h]

theorem branch_fault {c : Bool} {s : State} {f : Fault} :
    branch c s = .fault f ↔ c = true ∧ s.pc = 0xFFFF#16 ∧ f = .memoryBounds s.pc s.ia := by
  unfold branch
  cases c with
  | false => simp
  | true =>
    simp only [if_true, true_and]
    rw [← memRead_error]
    cases memRead s s.pc <;> simp

theorem branch_not_refused {c : Bool} {s : State} {r : Refusal} : branch c s ≠ .refused r := by
  unfold branch
  intro h
  repeat' split at h
  all_goals cases h

/-- ASL on the accumulator. -/
theorem execAsl_acc (s : State) :
    execAsl .accumulator s = .next ((s.setA (shiftLeft s.a)).setP (aslFlags s.a s.p)) := by
  simp [execAsl, resolve, resolveWith, State.advance, Mode.length, State.setPC, State.setP]

/-- ASL in every other mode is the shared read-modify-write. -/
theorem execAsl_memory {m : Mode} (h : m ≠ .accumulator) (s : State) :
    execAsl m s = modifyOperand .asl m s shiftLeft aslFlags := by
  unfold execAsl
  cases hr : resolve .asl m s with
  | ok t =>
    cases t with
    | acc => exact absurd (resolveWith_acc.1 hr) h
    | addr a => rfl
  | error f => simp [modifyOperand, resolveAddr, hr]

/-! ### The step -/

theorem finishStep_next {s t : State} {o : Host.Outcome State Fault Refusal} :
    finishStep s o = .next t ↔
      (∃ u, o = .next u ∧ u.countStep = t) ∨ (∃ f, o = .fault f ∧ s.takeFault f = t) := by
  cases o <;> simp [finishStep]

theorem fetchOpcode_ok {s : State} {op : Byte} :
    fetchOpcode s = .ok op ↔ s.pc.toNat < Config.memSize ∧ s.mem.read s.pc.toNat = op := memReadBy_ok

theorem fetchOpcode_error {s : State} {f : Fault} :
    fetchOpcode s = .error f ↔ s.pc = 0xFFFF#16 ∧ f = .memoryBounds s.pc s.pc := memReadBy_error

/-- A step of a core that is not RUNNING keeps the state. -/
theorem step_of_not_running {s : State} (h : s.rs ≠ .running) : step s = .next s := by
  unfold step stepWith
  cases hr : s.rs <;> simp_all

/-- A step of a RUNNING core runs one instruction: this hardware has no step bound. -/
theorem step_of_running {s : State} (h : s.rs = .running) : step s = stepInstr s := by
  simp [step, stepWith, h, Config.maxSteps, boundReached]

/-- Everything a step of a RUNNING core can do. -/
theorem stepInstr_next {s t : State} :
    stepInstr s = .next t ↔
      (s.pc = 0xFFFF#16 ∧ s.takeFault (.memoryBounds s.pc s.pc) = t) ∨
        (s.pc.toNat < Config.memSize ∧
          finishStep s (exec (decodeOpcode (s.mem.read s.pc.toNat)) s.enter) = .next t) := by
  unfold stepInstr
  by_cases h : s.pc.toNat < Config.memSize
  · have hne : s.pc ≠ 0xFFFF#16 := by
      intro e
      rw [e] at h
      exact absurd h (by decide)
    rw [fetchOpcode_ok.2 ⟨h, rfl⟩]
    exact ⟨fun e => .inr ⟨h, e⟩, fun e => e.elim (fun e => absurd e.1 hne) And.right⟩
  · have hb : s.pc = 0xFFFF#16 := by simp only [Config.memSize] at h; bv_omega
    rw [fetchOpcode_error.2 ⟨hb, rfl⟩]
    exact ⟨fun e => .inl ⟨hb, Host.Outcome.next.inj e⟩,
      fun e => e.elim (fun e => congrArg Host.Outcome.next e.2) (fun e => absurd e.1 h)⟩

/-- No instruction is refused: this hardware's policy makes NONE a no-op. -/
theorem exec_not_refused (i : Instr) (s : State) (r : Refusal) : exec i s ≠ .refused r := by
  cases i with
  | asl m =>
    by_cases h : m = .accumulator
    · subst h
      simp [exec, execAsl_acc]
    · simpa [exec, execAsl_memory h] using modifyOperand_not_refused
  | lda m | ldx m | ldy m | and m | eor m | cmp m | cpx m | cpy m | bit m => exact onOperand_not_refused
  | sta m => exact storeOperand_not_refused
  | inc m | dec m => exact modifyOperand_not_refused
  | bcc | bcs | beq | bne | bmi | bpl | bvc | bvs => exact branch_not_refused
  | tax | tay | inx | iny | dex | dey | clc | cld | cli | clv =>
    simp [exec, execTax, execTay, execInx, execIny, execDex, execDey, execClc, execCld, execCli, execClv]
  | brk => simp [exec, execBrk]
  | noneOp op => simp [exec, execNone, unlisted, Config.unlistedPolicy]

end Sys2Proof.Machine
end

