-- ==== Sys2Proof/Laws/Exec.lean ====
section
/-! SUPPORT. What every executor has in common when it answers a next state: it leaves the step counter and the fault record,
RS changes by BRK alone, and M changes by one write of one byte at most. -/

namespace Sys2Proof.Machine

/-- The executors leave the step counter and the fault record alone, and RS too unless the instruction is BRK. -/
theorem exec_run_state {i : Instr} {s t : State} (h : exec i s = .next t) :
    t.steps = s.steps ∧ t.fault = s.fault ∧ (t.rs = s.rs ∨ (i = .brk ∧ t.rs = .halted)) := by
  cases i with
  | lda m | ldx m | ldy m | and m | eor m | cmp m | cpx m | cpy m | bit m =>
    obtain ⟨v, -, rfl⟩ := onOperand_next.1 h
    exact ⟨rfl, rfl, .inl rfl⟩
  | sta m =>
    obtain ⟨a, -, -, rfl⟩ := storeOperand_next.1 h
    exact ⟨rfl, rfl, .inl rfl⟩
  | inc m | dec m =>
    obtain ⟨a, -, -, rfl⟩ := modifyOperand_next.1 h
    exact ⟨rfl, rfl, .inl rfl⟩
  | asl m =>
    by_cases hm : m = .accumulator
    · subst hm
      rw [exec, execAsl_acc] at h
      cases h
      exact ⟨rfl, rfl, .inl rfl⟩
    · rw [exec, execAsl_memory hm] at h
      obtain ⟨a, -, -, rfl⟩ := modifyOperand_next.1 h
      exact ⟨rfl, rfl, .inl rfl⟩
  | bcc | bcs | beq | bne | bmi | bpl | bvc | bvs =>
    rcases branch_next.1 h with ⟨-, -, rfl⟩ | ⟨-, rfl⟩ <;> exact ⟨rfl, rfl, .inl rfl⟩
  | tax | tay | inx | iny | dex | dey | clc | cld | cli | clv =>
    cases h
    exact ⟨rfl, rfl, .inl rfl⟩
  | brk =>
    cases h
    exact ⟨rfl, rfl, .inr ⟨rfl, rfl⟩⟩
  | noneOp op =>
    cases h
    exact ⟨rfl, rfl, .inl rfl⟩

/-- The executors change M by one write to an address that has a byte, and only STA, INC, DEC and the memory forms of ASL do. -/
theorem exec_memory {i : Instr} {s t : State} (h : exec i s = .next t) :
    t.mem = s.mem ∨
      ∃ a : Addr, a.toNat < Config.memSize ∧ (∃ v, t.mem = s.mem.write a.toNat v) ∧
        resolve i.kind i.mode s = .ok (.addr a) ∧ (i.kind = .sta ∨ i.kind = .inc ∨ i.kind = .dec ∨ i.kind = .asl) := by
  cases i with
  | lda m | ldx m | ldy m | and m | eor m | cmp m | cpx m | cpy m | bit m =>
    obtain ⟨v, -, rfl⟩ := onOperand_next.1 h
    exact .inl rfl
  | sta m =>
    obtain ⟨a, ha, hb, rfl⟩ := storeOperand_next.1 h
    exact .inr ⟨a, hb, ⟨_, rfl⟩, ha, .inl rfl⟩
  | inc m =>
    obtain ⟨a, ha, hb, rfl⟩ := modifyOperand_next.1 h
    exact .inr ⟨a, hb, ⟨_, rfl⟩, ha, .inr (.inl rfl)⟩
  | dec m =>
    obtain ⟨a, ha, hb, rfl⟩ := modifyOperand_next.1 h
    exact .inr ⟨a, hb, ⟨_, rfl⟩, ha, .inr (.inr (.inl rfl))⟩
  | asl m =>
    by_cases hm : m = .accumulator
    · subst hm
      rw [exec, execAsl_acc] at h
      cases h
      exact .inl rfl
    · rw [exec, execAsl_memory hm] at h
      obtain ⟨a, ha, hb, rfl⟩ := modifyOperand_next.1 h
      exact .inr ⟨a, hb, ⟨_, rfl⟩, ha, .inr (.inr (.inr rfl))⟩
  | bcc | bcs | beq | bne | bmi | bpl | bvc | bvs =>
    rcases branch_next.1 h with ⟨-, -, rfl⟩ | ⟨-, rfl⟩ <;> exact .inl rfl
  | tax | tay | inx | iny | dex | dey | clc | cld | cli | clv | brk | noneOp op =>
    cases h
    exact .inl rfl

/-- Every executor keeps the canonical form of M. -/
theorem exec_keeps_wf {i : Instr} {s t : State} (h : exec i s = .next t) (hw : s.mem.wf = true) : t.mem.wf = true := by
  rcases exec_memory h with he | ⟨a, hb, ⟨v, he⟩, -⟩
  · rw [he]
    exact hw
  · rw [he]
    exact Memory.wf_write hw hb v

end Sys2Proof.Machine
end

