-- ==== Sys2Proof/Laws/HostOps.lean ====
section
/-! SUPPORT. What the shared operations of the host interface can answer, and what `reset` and `run` do to the step counter. -/

namespace Sys2Proof.Machine

/-- A host operation answers a next state only where the host may act. -/
theorem whenAllowed_next {s t : State} {o : Host.Outcome State Fault Refusal} :
    whenAllowed s o = .next t ↔ s.rs.hostMayAct = true ∧ o = .next t := by
  unfold whenAllowed
  split <;> simp_all

/-- Two host operations in a row answer a next state only through one of the first. -/
theorem andThen_next {o : Host.Outcome State Fault Refusal} {f : State → Host.Outcome State Fault Refusal} {t : State} :
    andThen o f = .next t ↔ ∃ u, o = .next u ∧ f u = .next t := by
  cases o <;> simp [andThen]

/-- Zeroing the step counter twice is zeroing it once. -/
@[simp] theorem State.zeroSteps_zeroSteps (s : State) : s.zeroSteps.zeroSteps = s.zeroSteps := by
  cases h : s.steps <;> simp [State.zeroSteps, State.setSteps, h]

@[simp] theorem resetState_mem (s : State) : (resetState s).mem = s.mem := rfl
@[simp] theorem resetState_rs (s : State) : (resetState s).rs = .idle := rfl
@[simp] theorem resetState_steps (s : State) : (resetState s).steps = s.steps.map fun _ => 0 := rfl
@[simp] theorem resetState_fault (s : State) : (resetState s).fault = s.fault := rfl

@[simp] theorem runState_mem (s : State) : (runState s).mem = s.mem := rfl
@[simp] theorem runState_rs (s : State) : (runState s).rs = .running := rfl
@[simp] theorem runState_steps (s : State) : (runState s).steps = s.steps.map fun _ => 0 := rfl
@[simp] theorem runState_fault (s : State) : (runState s).fault = s.fault := rfl

end Sys2Proof.Machine
end

