-- ==== Sys2Proof/Laws/PerInstr.lean ====
section
/-! SUPPORT. One lemma per constructor of Instr for each statement made about every instruction. -/

namespace Sys2Proof

/-- A byte that no row has is looked up in vain. -/
theorem lookupOpcode_none {rows : List (Byte × Instr)} {op : Byte}
    (h : (rows.all fun r => !(Nat.beq r.1.toNat op.toNat)) = true) : lookupOpcode rows op = none := by
  induction rows with
  | nil => rfl
  | cons r rest ih =>
    obtain ⟨c, i⟩ := r
    rw [List.all_cons, Bool.and_eq_true] at h
    have hc : c ≠ op := by
      rintro rfl
      simp at h
    simp only [lookupOpcode, if_neg hc, ih h.2]

/-- The NONE codes and the codes of the grid are disjoint (30_encoding.md R95). -/
theorem noneCodes_unmapped :
    (noneCodes.all fun op => opcodeGrid.all fun r => !(Nat.beq r.1.toNat op.toNat)) = true := by decide +kernel

/-- Each of the 167 NONE codes decodes to the sentinel that carries it (R95). -/
theorem decode_noneCodes (op : Byte) (h : op ∈ noneCodes) : decodeOpcode op = .noneOp op := by
  simp only [decodeOpcode, lookupOpcode_none (List.all_eq_true.1 noneCodes_unmapped op h)]

end Sys2Proof

namespace Sys2Proof.Laws.OpcodeRoundTrip

/-- A well-formed instruction has an opcode byte, and that byte decodes to it (30_encoding.md R94, R95). -/
def Statement (i : Instr) : Prop := i.wf = true → ∃ op, opcode i = some op ∧ decodeOpcode op = i

theorem lda (m : Mode) : Statement (.lda m) := by
  intro h
  cases m <;> first | exact absurd h (by decide) | exact ⟨_, rfl, by decide⟩

theorem ldx (m : Mode) : Statement (.ldx m) := by
  intro h
  cases m <;> first | exact absurd h (by decide) | exact ⟨_, rfl, by decide⟩

theorem ldy (m : Mode) : Statement (.ldy m) := by
  intro h
  cases m <;> first | exact absurd h (by decide) | exact ⟨_, rfl, by decide⟩

theorem sta (m : Mode) : Statement (.sta m) := by
  intro h
  cases m <;> first | exact absurd h (by decide) | exact ⟨_, rfl, by decide⟩

theorem tax : Statement .tax := fun _ => ⟨_, rfl, by decide⟩

theorem tay : Statement .tay := fun _ => ⟨_, rfl, by decide⟩

theorem and (m : Mode) : Statement (.and m) := by
  intro h
  cases m <;> first | exact absurd h (by decide) | exact ⟨_, rfl, by decide⟩

theorem eor (m : Mode) : Statement (.eor m) := by
  intro h
  cases m <;> first | exact absurd h (by decide) | exact ⟨_, rfl, by decide⟩

theorem asl (m : Mode) : Statement (.asl m) := by
  intro h
  cases m <;> first | exact absurd h (by decide) | exact ⟨_, rfl, by decide⟩

theorem inx : Statement .inx := fun _ => ⟨_, rfl, by decide⟩

theorem iny : Statement .iny := fun _ => ⟨_, rfl, by decide⟩

theorem dex : Statement .dex := fun _ => ⟨_, rfl, by decide⟩

theorem dey : Statement .dey := fun _ => ⟨_, rfl, by decide⟩

theorem inc (m : Mode) : Statement (.inc m) := by
  intro h
  cases m <;> first | exact absurd h (by decide) | exact ⟨_, rfl, by decide⟩

theorem dec (m : Mode) : Statement (.dec m) := by
  intro h
  cases m <;> first | exact absurd h (by decide) | exact ⟨_, rfl, by decide⟩

theorem cmp (m : Mode) : Statement (.cmp m) := by
  intro h
  cases m <;> first | exact absurd h (by decide) | exact ⟨_, rfl, by decide⟩

theorem cpx (m : Mode) : Statement (.cpx m) := by
  intro h
  cases m <;> first | exact absurd h (by decide) | exact ⟨_, rfl, by decide⟩

theorem cpy (m : Mode) : Statement (.cpy m) := by
  intro h
  cases m <;> first | exact absurd h (by decide) | exact ⟨_, rfl, by decide⟩

theorem bit (m : Mode) : Statement (.bit m) := by
  intro h
  cases m <;> first | exact absurd h (by decide) | exact ⟨_, rfl, by decide⟩

theorem bcc : Statement .bcc := fun _ => ⟨_, rfl, by decide⟩

theorem bcs : Statement .bcs := fun _ => ⟨_, rfl, by decide⟩

theorem beq : Statement .beq := fun _ => ⟨_, rfl, by decide⟩

theorem bne : Statement .bne := fun _ => ⟨_, rfl, by decide⟩

theorem bmi : Statement .bmi := fun _ => ⟨_, rfl, by decide⟩

theorem bpl : Statement .bpl := fun _ => ⟨_, rfl, by decide⟩

theorem bvc : Statement .bvc := fun _ => ⟨_, rfl, by decide⟩

theorem bvs : Statement .bvs := fun _ => ⟨_, rfl, by decide⟩

theorem clc : Statement .clc := fun _ => ⟨_, rfl, by decide⟩

theorem cld : Statement .cld := fun _ => ⟨_, rfl, by decide⟩

theorem cli : Statement .cli := fun _ => ⟨_, rfl, by decide⟩

theorem clv : Statement .clv := fun _ => ⟨_, rfl, by decide⟩

theorem brk : Statement .brk := fun _ => ⟨_, rfl, by decide⟩

theorem noneOp (op : Byte) : Statement (.noneOp op) := by
  intro h
  have hm : noneCodes.contains op = true := h
  exact ⟨op, if_pos hm, decode_noneCodes op (List.contains_iff_mem.1 hm)⟩

end Sys2Proof.Laws.OpcodeRoundTrip
end

