-- ==== Sys2Proof/Tests/Slice0.lean ====
section
/-! SUPPORT. The model's own tests: the checks of WellFormed, decoding of words written out from the spec, one step on the
spec's own vectors (95_test_vectors.md, the number in each comment), and a witness for the hypotheses of each statement. -/

namespace Sys2Proof.Tests

open Sys2Proof.Machine Sys2Proof.Safety

/-! ### Small states -/

/-- The state of a vector of 95_test_vectors.md before its step: `new`, RUNNING, the instruction's bytes at PC. -/
def at_ (pc : Addr) (bytes : List Byte) : State :=
  { State.new with pc := pc, rs := .running, mem := placeBytes [] pc bytes }

/-- One more byte of memory. -/
def put (s : State) (a : Addr) (v : Byte) : State := s.setMem (s.mem.write a.toNat v)

/-- The state inside the executor, PC at the operand bytes `bytes`. -/
def inside (bytes : List Byte) : State := at_ 0x8001 bytes

/-- What is read off a next state; none for a fault or a refusal. -/
def view {α : Type} (o : Host.Outcome State Fault Refusal) (f : State → α) : Option α :=
  match o with
  | .next t => some (f t)
  | _ => none

/-- A, P and PC. -/
def apc (t : State) : Byte × Byte × Addr := (t.a, t.p, t.pc)

/-- X, P and PC. -/
def xpc (t : State) : Byte × Byte × Addr := (t.x, t.p, t.pc)

/-- Y, P and PC. -/
def ypc (t : State) : Byte × Byte × Addr := (t.y, t.p, t.pc)

/-- P and PC. -/
def ppc (t : State) : Byte × Addr := (t.p, t.pc)

/-- RS, the fault record, A, P and PC. -/
def stopped (t : State) : RunState × Option Fault × Byte × Byte × Addr := (t.rs, t.fault, t.a, t.p, t.pc)

/-! ### WellFormed refuses an ill-formed term of each check -/

theorem test_wf_lda : (Instr.lda .zeroPageY).wf = false ∧ (Instr.lda .indirectY).wf = true := by decide
theorem test_wf_ldx : (Instr.ldx .zeroPageX).wf = false ∧ (Instr.ldx .zeroPageY).wf = true := by decide
theorem test_wf_ldy : (Instr.ldy .zeroPageY).wf = false ∧ (Instr.ldy .absoluteX).wf = true := by decide
theorem test_wf_sta : (Instr.sta .immediate).wf = false ∧ (Instr.sta .absoluteY).wf = true := by decide
theorem test_wf_and : (Instr.and .accumulator).wf = false ∧ (Instr.and .indirectX).wf = true := by decide
theorem test_wf_eor : (Instr.eor .implied).wf = false ∧ (Instr.eor .immediate).wf = true := by decide
theorem test_wf_asl : (Instr.asl .immediate).wf = false ∧ (Instr.asl .accumulator).wf = true := by decide
theorem test_wf_inc : (Instr.inc .accumulator).wf = false ∧ (Instr.inc .absoluteX).wf = true := by decide
theorem test_wf_dec : (Instr.dec .absoluteY).wf = false ∧ (Instr.dec .zeroPage).wf = true := by decide
theorem test_wf_cmp : (Instr.cmp .indirect).wf = false ∧ (Instr.cmp .absoluteY).wf = true := by decide
theorem test_wf_cpx : (Instr.cpx .zeroPageX).wf = false ∧ (Instr.cpx .absolute).wf = true := by decide
theorem test_wf_cpy : (Instr.cpy .absoluteX).wf = false ∧ (Instr.cpy .immediate).wf = true := by decide
theorem test_wf_bit : (Instr.bit .immediate).wf = false ∧ (Instr.bit .absolute).wf = true := by decide
theorem test_wf_none : (Instr.noneOp 0xA9).wf = false ∧ (Instr.noneOp 0xEA).wf = true := by decide

/-! ### Decoding of words written out bit by bit from R94 and R95 (operand bytes after the opcode byte) -/

theorem test_decode_lda : decode [0b10110001, 0x10] = .ok (.lda .indirectY, [0x10], []) := rfl
theorem test_decode_ldx : decode [0b10110110, 0x10] = .ok (.ldx .zeroPageY, [0x10], []) := rfl
theorem test_decode_ldy : decode [0b10111100, 0x34, 0x12] = .ok (.ldy .absoluteX, [0x34, 0x12], []) := rfl
theorem test_decode_sta : decode [0b10011101, 0x00, 0x02] = .ok (.sta .absoluteX, [0x00, 0x02], []) := rfl
theorem test_decode_tax : decode [0b10101010, 0x00] = .ok (.tax, [], [0x00]) := rfl
theorem test_decode_tay : decode [0b10101000] = .ok (.tay, [], []) := rfl
theorem test_decode_and : decode [0b00101001, 0x3C] = .ok (.and .immediate, [0x3C], []) := rfl
theorem test_decode_eor : decode [0b01000001, 0x20] = .ok (.eor .indirectX, [0x20], []) := rfl
theorem test_decode_asl : decode [0b00001010] = .ok (.asl .accumulator, [], []) := rfl
theorem test_decode_asl_memory : decode [0b00011110, 0x00, 0x03] = .ok (.asl .absoluteX, [0x00, 0x03], []) := rfl
theorem test_decode_inx : decode [0b11101000] = .ok (.inx, [], []) := rfl
theorem test_decode_iny : decode [0b11001000] = .ok (.iny, [], []) := rfl
theorem test_decode_dex : decode [0b11001010] = .ok (.dex, [], []) := rfl
theorem test_decode_dey : decode [0b10001000] = .ok (.dey, [], []) := rfl
theorem test_decode_inc : decode [0b11100110, 0x10] = .ok (.inc .zeroPage, [0x10], []) := rfl
theorem test_decode_dec : decode [0b11010110, 0x10] = .ok (.dec .zeroPageX, [0x10], []) := rfl
theorem test_decode_cmp : decode [0b11011001, 0x00, 0x02] = .ok (.cmp .absoluteY, [0x00, 0x02], []) := rfl
theorem test_decode_cpx : decode [0b11100000, 0x03] = .ok (.cpx .immediate, [0x03], []) := rfl
theorem test_decode_cpy : decode [0b11001100, 0x00, 0x02] = .ok (.cpy .absolute, [0x00, 0x02], []) := rfl
theorem test_decode_bit : decode [0b00101100, 0x00, 0x02] = .ok (.bit .absolute, [0x00, 0x02], []) := rfl
theorem test_decode_bcc : decode [0b10010000, 0x04] = .ok (.bcc, [0x04], []) := rfl
theorem test_decode_bcs : decode [0b10110000, 0x04] = .ok (.bcs, [0x04], []) := rfl
theorem test_decode_beq : decode [0b11110000, 0xFC] = .ok (.beq, [0xFC], []) := rfl
theorem test_decode_bne : decode [0b11010000, 0xFB] = .ok (.bne, [0xFB], []) := rfl
theorem test_decode_bmi : decode [0b00110000, 0x10] = .ok (.bmi, [0x10], []) := rfl
theorem test_decode_bpl : decode [0b00010000, 0x10] = .ok (.bpl, [0x10], []) := rfl
theorem test_decode_bvc : decode [0b01010000, 0x80] = .ok (.bvc, [0x80], []) := rfl
theorem test_decode_bvs : decode [0b01110000, 0x7F] = .ok (.bvs, [0x7F], []) := rfl
theorem test_decode_clc : decode [0b00011000] = .ok (.clc, [], []) := rfl
theorem test_decode_cld : decode [0b11011000] = .ok (.cld, [], []) := rfl
theorem test_decode_cli : decode [0b01011000] = .ok (.cli, [], []) := rfl
theorem test_decode_clv : decode [0b10111000] = .ok (.clv, [], []) := rfl
theorem test_decode_brk : decode [0b00000000] = .ok (.brk, [], []) := rfl
theorem test_decode_none : decode [0b01001100, 0x00, 0x80] = .ok (.noneOp 0x4C, [], [0x00, 0x80]) := rfl

/-- A list too short for its opcode is refused by name. -/
theorem test_decode_truncated :
    decode [] = .error .noOpcode ∧ decode [0xAD, 0x00] = .error (.truncated 0xAD 2 1) := ⟨rfl, rfl⟩

/-- R94 has 89 mapped rows and R95 167 NONE codes. -/
theorem test_row_counts : opcodeGrid.length = 89 ∧ noneCodes.length = 167 := ⟨rfl, rfl⟩

/-- The descriptor of STA abs,X: length 3, 5 nominal cycles (R94). -/
theorem test_descriptor : (opcodeTable 0x9D).mnemonic = "STA" ∧ (opcodeTable 0x9D).len = 3 ∧
    (opcodeTable 0x9D).cycles = some 5 ∧ (opcodeTable 0xEA).cycles = none := by decide

/-! ### One step on the spec's vectors -/

/-- V1, V4. -/
theorem test_lda : view (step (at_ 0x8000 [0xA9, 0x00])) apc = some (0x00, 0x26, 0x8002) ∧
    view (step (put (put ((at_ 0x8000 [0xB5, 0x80]).setX 0xFF) 0x007F 0x11) 0x017F 0x22)) apc =
      some (0x11, 0x24, 0x8002) := by decide

/-- V8, V10: the indirect forms wrap. -/
theorem test_lda_indirect :
    view (step (put (put (put ((at_ 0x8000 [0xA1, 0xFE]).setX 0x03) 0x0001 0x00) 0x0002 0x03) 0x0300 0x66)) apc =
      some (0x66, 0x24, 0x8002) ∧
    view (step (put (put (put ((at_ 0x8000 [0xB1, 0x10]).setY 0xFF) 0x0010 0xF0) 0x0011 0xFF) 0x00EF 0x88)) apc =
      some (0x88, 0xA4, 0x8002) := by decide

/-- V11: the indexed zero-page form of LDX uses Y. -/
theorem test_ldx : view (step (put ((at_ 0x8000 [0xB6, 0x10]).setY 0xF5) 0x0005 0x99)) xpc =
    some (0x99, 0xA4, 0x8002) := by decide

/-- V13. -/
theorem test_ldy : view (step (((at_ 0x8000 [0xBC, 0x34, 0x12]).setX 0x01).setY 0x55)) ypc =
    some (0x00, 0x26, 0x8003) := by decide

/-- V15, V16. -/
theorem test_sta :
    view (step ((((at_ 0x8000 [0x9D, 0x00, 0x02]).setA 0x80).setX 0x05).setP 0x27))
      (fun t => (t.mem.read 0x0205, t.p, t.pc)) = some (0x80, 0x27, 0x8003) ∧
    view (step (put (put (((at_ 0x8000 [0x91, 0x40]).setA 0x01).setY 0x10) 0x0040 0x00) 0x0041 0x03))
      (fun t => (t.mem.read 0x0310, t.p, t.pc)) = some (0x01, 0x24, 0x8002) := by decide

/-- V17, V18. -/
theorem test_transfers : view (step ((at_ 0x8000 [0xAA]).setX 0x55)) xpc = some (0x00, 0x26, 0x8001) ∧
    view (step ((at_ 0x8000 [0xA8]).setA 0x80)) ypc = some (0x80, 0xA4, 0x8001) := by decide

/-- V19, V21. -/
theorem test_and : view (step ((at_ 0x8000 [0x29, 0x3C]).setA 0xF0)) apc = some (0x30, 0x24, 0x8002) ∧
    view (step (put ((at_ 0x8000 [0x25, 0x10]).setA 0xFF) 0x0010 0x80)) apc = some (0x80, 0xA4, 0x8002) := by decide

/-- V22, V23. -/
theorem test_eor : view (step ((at_ 0x8000 [0x49, 0xFF]).setA 0x0F)) apc = some (0xF0, 0xA4, 0x8002) ∧
    view (step ((at_ 0x8000 [0x49, 0x5A]).setA 0x5A)) apc = some (0x00, 0x26, 0x8002) := by decide

/-- V25, V27. -/
theorem test_asl_accumulator : view (step ((at_ 0x8000 [0x0A]).setA 0x80)) apc = some (0x00, 0x27, 0x8001) ∧
    view (step ((at_ 0x8000 [0x0A]).setP 0x25)) apc = some (0x00, 0x26, 0x8001) := by decide

/-- V28: A is kept. -/
theorem test_asl_memory : view (step (put ((at_ 0x8000 [0x06, 0x10]).setA 0x77) 0x0010 0x81))
    (fun t => (t.mem.read 0x0010, apc t)) = some (0x02, 0x77, 0x25, 0x8002) := by decide

/-- V30, V31. -/
theorem test_inx : view (step ((at_ 0x8000 [0xE8]).setX 0xFF)) xpc = some (0x00, 0x26, 0x8001) ∧
    view (step ((at_ 0x8000 [0xE8]).setX 0x7F)) xpc = some (0x80, 0xA4, 0x8001) := by decide

/-- V32. -/
theorem test_iny : view (step (((at_ 0x8000 [0xC8]).setY 0xFF).setP 0x25)) ypc = some (0x00, 0x27, 0x8001) := by decide

/-- V33, V34. -/
theorem test_dex : view (step (at_ 0x8000 [0xCA])) xpc = some (0xFF, 0xA4, 0x8001) ∧
    view (step ((at_ 0x8000 [0xCA]).setX 0x01)) xpc = some (0x00, 0x26, 0x8001) := by decide

/-- V35. -/
theorem test_dey : view (step ((at_ 0x8000 [0x88]).setY 0x80)) ypc = some (0x7F, 0x24, 0x8001) := by decide

/-- V36, V37. -/
theorem test_inc : view (step (put (at_ 0x8000 [0xE6, 0x10]) 0x0010 0xFF))
      (fun t => (t.mem.read 0x0010, ppc t)) = some (0x00, 0x26, 0x8002) ∧
    view (step (put (at_ 0x8000 [0xEE, 0x00, 0x02]) 0x0200 0x7F))
      (fun t => (t.mem.read 0x0200, ppc t)) = some (0x80, 0xA4, 0x8003) := by decide

/-- V38, V39. -/
theorem test_dec : view (step (put ((at_ 0x8000 [0xD6, 0x10]).setX 0x02) 0x0012 0x01))
      (fun t => (t.mem.read 0x0012, ppc t)) = some (0x00, 0x26, 0x8002) ∧
    view (step ((at_ 0x8000 [0xDE, 0x00, 0x02]).setX 0xFF))
      (fun t => (t.mem.read 0x02FF, ppc t)) = some (0xFF, 0xA4, 0x8003) := by decide

/-- V40, V44: N is bit 7 of the difference. -/
theorem test_cmp : view (step ((at_ 0x8000 [0xC9, 0x10]).setA 0x10)) apc = some (0x10, 0x27, 0x8002) ∧
    view (step ((at_ 0x8000 [0xC9, 0x00]).setA 0x80)) apc = some (0x80, 0xA5, 0x8002) := by decide

/-- V46, V47. -/
theorem test_cpx : view (step ((at_ 0x8000 [0xE0, 0x03]).setX 0x05)) xpc = some (0x05, 0x25, 0x8002) ∧
    view (step (put ((at_ 0x8000 [0xE4, 0x10]).setX 0xFF) 0x0010 0xFF)) xpc = some (0xFF, 0x27, 0x8002) := by decide

/-- V48, V49. -/
theorem test_cpy : view (step ((at_ 0x8000 [0xC0, 0x05]).setY 0x03)) ypc = some (0x03, 0xA4, 0x8002) ∧
    view (step (put (at_ 0x8000 [0xCC, 0x00, 0x02]) 0x0200 0x80)) ypc = some (0x00, 0xA4, 0x8003) := by decide

/-- V50, V53. -/
theorem test_bit : view (step (put ((at_ 0x8000 [0x24, 0x10]).setA 0xBF) 0x0010 0xD5)) apc =
      some (0xBF, 0xE4, 0x8002) ∧
    view (step (((at_ 0x8000 [0x24, 0x10]).setA 0xFF).setP 0x64)) apc = some (0xFF, 0x26, 0x8002) := by decide

/-- V54, V55. -/
theorem test_bcc : view (step (at_ 0x8000 [0x90, 0x04])) ppc = some (0x24, 0x8006) ∧
    view (step ((at_ 0x8000 [0x90, 0x04]).setP 0x25)) ppc = some (0x25, 0x8002) := by decide

/-- V56, and the example of R222. -/
theorem test_bcs : view (step ((at_ 0x8000 [0xB0, 0x04]).setP 0x25)) ppc = some (0x25, 0x8006) ∧
    view (step (at_ 0x8000 [0xB0, 0x04])) ppc = some (0x24, 0x8002) := by decide

/-- V57, and the wrap of R220 (ia = 0x0010, off = 0x80). -/
theorem test_beq : view (step ((at_ 0x8000 [0xF0, 0xFC]).setP 0x26)) ppc = some (0x26, 0x7FFE) ∧
    view (step ((at_ 0x0010 [0xF0, 0x80]).setP 0x26)) ppc = some (0x26, 0xFF92) := by decide

/-- V58, and P7's case: offset -1 lands on the offset byte. -/
theorem test_bne : view (step ((at_ 0x8000 [0xD0, 0xFC]).setP 0x26)) ppc = some (0x26, 0x8002) ∧
    view (step (at_ 0x8000 [0xD0, 0xFF])) ppc = some (0x24, 0x8001) := by decide

/-- V59, and the same with N = 0. -/
theorem test_bmi : view (step ((at_ 0x8000 [0x30, 0x10]).setP 0xA4)) ppc = some (0xA4, 0x8012) ∧
    view (step (at_ 0x8000 [0x30, 0x10])) ppc = some (0x24, 0x8002) := by decide

/-- V60, and the wrap of R220 (ia = 0xFFF0, off = 0x7F). -/
theorem test_bpl : view (step ((at_ 0x8000 [0x10, 0x10]).setP 0xA4)) ppc = some (0xA4, 0x8002) ∧
    view (step (at_ 0xFFF0 [0x10, 0x7F])) ppc = some (0x24, 0x0071) := by decide

/-- V61, and the same with V = 1. -/
theorem test_bvc : view (step (at_ 0x8000 [0x50, 0x80])) ppc = some (0x24, 0x7F82) ∧
    view (step ((at_ 0x8000 [0x50, 0x80]).setP 0x64)) ppc = some (0x64, 0x8002) := by decide

/-- V62, and the same with V = 0. -/
theorem test_bvs : view (step ((at_ 0x8000 [0x70, 0x7F]).setP 0x64)) ppc = some (0x64, 0x8081) ∧
    view (step (at_ 0x8000 [0x70, 0x7F])) ppc = some (0x24, 0x8002) := by decide

/-- V64, V65. -/
theorem test_clc_cld : view (step ((at_ 0x8000 [0x18]).setP 0x25)) ppc = some (0x24, 0x8001) ∧
    view (step ((at_ 0x8000 [0xD8]).setP 0x2C)) ppc = some (0x24, 0x8001) := by decide

/-- V66, V68. -/
theorem test_cli_clv : view (step (at_ 0x8000 [0x58])) ppc = some (0x20, 0x8001) ∧
    view (step ((at_ 0x8000 [0xB8]).setP 0xE7)) ppc = some (0xA7, 0x8001) := by decide

/-- V86, V87. -/
theorem test_brk : view (step (at_ 0x8000 [0x00])) stopped = some (.halted, none, 0x00, 0x34, 0x8001) ∧
    view (step ((at_ 0x8000 [0x00]).setP 0x00)) stopped = some (.halted, none, 0x00, 0x10, 0x8001) := by decide

/-- V69, V71. -/
theorem test_none : view (step (((at_ 0x8000 [0xEA]).setA 0x12).setP 0xE7)) apc = some (0x12, 0xE7, 0x8001) ∧
    view (step (at_ 0x8000 [0xFF])) apc = some (0x00, 0x24, 0x8001) := by decide

/-! ### Corners: bounds, the open parameter, the step bound, the host, the assembler -/

/-- V72, V75: a data access to 0xFFFF faults. -/
theorem test_fault_data :
    view (step (at_ 0x8000 [0xAD, 0xFF, 0xFF])) stopped =
      some (.faulted, some (.memoryBounds 0xFFFF 0x8000), 0x00, 0x24, 0x8000) ∧
    view (step (at_ 0x8000 [0xEE, 0xFF, 0xFF])) stopped =
      some (.faulted, some (.memoryBounds 0xFFFF 0x8000), 0x00, 0x24, 0x8000) := by decide

/-- V74: nothing is written. -/
theorem test_fault_store : view (step (((at_ 0x8000 [0x9D, 0xF0, 0xFF]).setA 0x11).setX 0x0F))
    (fun t => (t.rs, t.mem)) = some (.faulted, placeBytes [] 0x8000 [0x9D, 0xF0, 0xFF]) := by decide

/-- V73, V78: a fetch and an operand read at 0xFFFF fault. -/
theorem test_fault_fetch :
    view (step (at_ 0xFFFF [])) stopped = some (.faulted, some (.memoryBounds 0xFFFF 0xFFFF), 0x00, 0x24, 0xFFFF) ∧
    view (step (at_ 0xFFFD [0xAD, 0x00])) stopped =
      some (.faulted, some (.memoryBounds 0xFFFF 0xFFFD), 0x00, 0x24, 0xFFFD) := by decide

/-- V76, V77: the offset byte is read only when the branch is taken. -/
theorem test_fault_branch :
    view (step (at_ 0xFFFE [0xD0])) stopped =
      some (.faulted, some (.memoryBounds 0xFFFF 0xFFFE), 0x00, 0x24, 0xFFFE) ∧
    view (step ((at_ 0xFFFE [0xD0]).setP 0x26)) stopped = some (.running, none, 0x00, 0x26, 0x0000) := by decide

/-- The memory of V82 to V85, inside the executor of an instruction whose operand byte is `b`. -/
def pointerAtFF (b : Byte) : State :=
  put (put (put (inside [b]) 0x00FF 0x34) 0x0000 0x12) 0x0100 0x56

/-- V82, V83: the address under each value of ZP_PTR_WRAP. -/
theorem test_pointer_wrap_y :
    resolveWith .zeroPage .lda .indirectY (pointerAtFF 0xFF) = .ok (.addr 0x1234) ∧
    resolveWith .linear .lda .indirectY (pointerAtFF 0xFF) = .ok (.addr 0x5634) := ⟨rfl, rfl⟩

/-- V84, V85. -/
theorem test_pointer_wrap_x :
    resolveWith .zeroPage .lda .indirectX ((pointerAtFF 0xFE).setX 0x01) = .ok (.addr 0x1234) ∧
    resolveWith .linear .lda .indirectX ((pointerAtFF 0xFE).setX 0x01) = .ok (.addr 0x5634) := ⟨rfl, rfl⟩

/-- V88. -/
theorem test_refuse_policy : unlisted .refuse 0xFF (inside []) = .refused (.unlistedOpcode 0xFF) := rfl

/-- P8's bound: at 10 steps nothing executes, at 9 the BNE does. -/
theorem test_step_bound :
    view (stepWith (some 10) ((at_ 0x8002 [0xD0, 0xFE]).setSteps (some 10))) (fun t => (t.rs, t.steps, t.pc)) =
      some (.bounded, some 10, 0x8002) ∧
    view (stepWith (some 10) ((at_ 0x8002 [0xD0, 0xFE]).setSteps (some 9))) (fun t => (t.rs, t.steps, t.pc)) =
      some (.running, some 10, 0x8002) := by decide

/-- H6: reset. -/
theorem test_reset : view (hostReset ((((put (put State.new 0xFFFC 0x34) 0xFFFD 0x12).setA 0x05).setP 0xFF).setRS .halted))
    (fun t => (t.rs, apc t)) = some (.idle, 0x00, 0x24, 0x1234) := by decide

/-- E3's start: `load_and_run` leaves PC at the program through the vector, RUNNING. -/
theorem test_load_and_run : view (hostLoadAndRun [0xA9, 0x05, 0x00] State.new)
    (fun t => (t.rs, t.mem.read 0x8001, t.mem.read 0xFFFD, apc t)) = some (.running, 0x05, 0x80, 0x00, 0x24, 0x8000) := by
  decide

/-- R97: the placed word is fetched, and the three bytes lie low byte first. -/
theorem test_withFetchWord :
    view (step (State.reset.withFetchWord 24 0x000205A9)) apc = some (0x05, 0x24, 0x0002) ∧
    decodeTableWord 8 0x8D = some (.sta .absolute) ∧ decodeTableWord 24 0x80088D = some (.sta .absolute) := by decide

/-- R105, R91: the source's program text, and a branch written as its target. -/
theorem test_assembler :
    assemblerText (.lda .immediate) 0x8000 [0x05] = some "LDA #$05" ∧
    assemblerText (.sta .absolute) 0x8002 [0x08, 0x80] = some "STA $8008" ∧
    assemblerText (.lda .indirectY) 0x8000 [0x10] = some "LDA ($10),Y" ∧
    assemblerText .bne 0x8005 [0xFB] = some "BNE $8002" ∧
    branchOffset 0x8005 0x8002 = some 0xFB ∧ branchOffset 0x8000 0x8082 = none := by decide

/-! ### Witnesses: for every statement with hypotheses, a concrete state and operands that meet all of them together,
and one more for each further clause, at a boundary where its range has one -/

/-- DecodeGivesEncodedInstructionBack: three lengths, and a well-formed instruction with its operand bytes. -/
theorem witness_encode :
    encode .tax [] = some [0xAA] ∧ encode (.lda .immediate) [0x05] = some [0xA9, 0x05] ∧
    encode (.sta .absoluteX) [0x00, 0x02] = some [0x9D, 0x00, 0x02] ∧ encode (.noneOp 0xFF) [] = some [0xFF] ∧
    (Instr.sta .absoluteX).wf = true ∧ [0x00#8, 0x02#8].length + 1 = (Instr.sta .absoluteX).len := by decide

/-- DecodedInstructionEncodesToItsBytes. -/
theorem witness_decoded : decode [0x9D, 0x00, 0x02, 0x60] = .ok (.sta .absoluteX, [0x00, 0x02], [0x60]) := rfl

/-- EveryOpcodeByteDecodes, its third clause. -/
theorem witness_decode_error : decode [0x9D, 0x00] = .error (.truncated 0x9D 2 1) := rfl

/-- UsageErrorIsUnreachable: an opcode of each of its two kinds. -/
theorem witness_table : (decodeOpcode 0xA9).kind ∈ resolverKinds ∧ (decodeOpcode 0xD0).mode.resolvable = false ∧
    (decodeOpcode 0xEA).mode.resolvable = false ∧ (decodeOpcode 0xAA).mode.resolvable = false := by decide

/-- StepRunsTheDecodedInstruction: in the middle of memory, and at the last address that has a byte. -/
theorem witness_step_runs :
    ((at_ 0x8000 [0xA9, 0x05]).rs = .running ∧ (at_ 0x8000 [0xA9, 0x05]).pc.toNat < Config.memSize) ∧
    decode (bytesAt (at_ 0x8000 [0xA9, 0x05]).mem 0x8000 3) = .ok (.lda .immediate, [0x05], [0x00]) ∧
    (at_ 0xFFFE [0xE8]).pc.toNat < Config.memSize ∧
    decode (bytesAt (at_ 0xFFFE [0xE8]).mem 0xFFFE 3) = .ok (.inx, [], [0x00, 0x00]) :=
  ⟨⟨rfl, by decide⟩, rfl, by decide, rfl⟩

/-- OnlyARunningCoreExecutes: each of the other run states. -/
theorem witness_not_running : State.reset.rs ≠ .running ∧ (State.reset.setRS .halted).rs ≠ .running ∧
    (State.reset.takeFault (.loadCapacity 0x8000)).rs ≠ .running ∧ (State.reset.setRS .bounded).rs ≠ .running := by
  decide

/-- StepBoundStopsBeforeTheNextInstruction: at the bound, one below it, without a counter, and a bound of 0; for
RunAfterNewHaltsAtOnce a bound that is not 0. -/
theorem witness_bound : (at_ 0x8000 [0xE8]).rs = .running ∧ ((at_ 0x8000 [0xE8]).setSteps (some 10)).steps = some 10 ∧
    ((at_ 0x8000 [0xE8]).setSteps (some 9)).steps ≠ some 10 ∧ (at_ 0x8000 [0xE8]).steps ≠ some 0 ∧
    (State.newWith (some 0)).steps = some 0 ∧ 10 ≠ 0 := by decide

/-- FaultingStepKeepsNoWrite: V75. -/
theorem witness_faulting : ∃ s t : State, s.rs = .running ∧ step s = .next t ∧ t.rs = .faulted :=
  ⟨at_ 0x8000 [0xEE, 0xFF, 0xFF], _, rfl, rfl, rfl⟩

/-- OnlyBrkHalts: a step that halts, one that goes on, one that faults. -/
theorem witness_halts :
    (∃ s t : State, s.rs = .running ∧ step s = .next t ∧ t.rs = .halted) ∧
    (∃ s t : State, s.rs = .running ∧ step s = .next t ∧ t.rs = .running) :=
  ⟨⟨at_ 0x8000 [0x00], _, rfl, rfl, rfl⟩, ⟨at_ 0x8000 [0xE8], _, rfl, rfl, rfl⟩⟩

/-- InvariantKeptByEveryStep: a RUNNING state of the invariant whose step stores. -/
theorem witness_inv_step : ∃ s t : State, Inv s ∧ s.rs = .running ∧ step s = .next t ∧ t.mem ≠ s.mem :=
  ⟨(at_ 0x8000 [0x85, 0x10]).setA 0x42, _, ⟨by decide, by decide, by decide⟩, rfl, rfl, by decide⟩

/-- InvariantKeptByHostOperations. -/
theorem witness_inv_host : ∃ t, Inv State.new ∧ hostDo (.load [0xA9, 0x05, 0x00]) State.new = .next t :=
  ⟨_, ⟨by decide, by decide, by decide⟩, rfl⟩

/-- FlagsChangeOnlyByTheirWriters: a step that changes each of the seven flags that have a writer. -/
theorem witness_flags_change :
    (∃ t, step ((at_ 0x8000 [0x0A]).setA 0x80) = .next t ∧ t.flag .c ≠ State.new.flag .c) ∧
    (∃ t, step (at_ 0x8000 [0xA9, 0x00]) = .next t ∧ t.flag .z ≠ State.new.flag .z) ∧
    (∃ t, step (at_ 0x8000 [0x58]) = .next t ∧ t.flag .i ≠ State.new.flag .i) ∧
    (∃ t, step ((at_ 0x8000 [0xD8]).setP 0x2C) = .next t ∧ t.flag .d ≠ ((at_ 0x8000 [0xD8]).setP 0x2C).flag .d) ∧
    (∃ t, step (at_ 0x8000 [0x00]) = .next t ∧ t.flag .b ≠ State.new.flag .b) ∧
    (∃ t, step (put (at_ 0x8000 [0x24, 0x10]) 0x0010 0x40) = .next t ∧ t.flag .v ≠ State.new.flag .v) ∧
    (∃ t, step (at_ 0x8000 [0xCA]) = .next t ∧ t.flag .n ≠ State.new.flag .n) :=
  ⟨⟨_, rfl, by decide⟩, ⟨_, rfl, by decide⟩, ⟨_, rfl, by decide⟩, ⟨_, rfl, by decide⟩, ⟨_, rfl, by decide⟩,
    ⟨_, rfl, by decide⟩, ⟨_, rfl, by decide⟩⟩

/-- RegistersAndMemoryChangeOnlyByTheirWriters: a step that changes each. -/
theorem witness_registers_change :
    (∃ t, step (at_ 0x8000 [0xA9, 0x05]) = .next t ∧ t.a ≠ (at_ 0x8000 [0xA9, 0x05]).a) ∧
    (∃ t, step (at_ 0x8000 [0xE8]) = .next t ∧ t.x ≠ (at_ 0x8000 [0xE8]).x) ∧
    (∃ t, step (at_ 0x8000 [0x88]) = .next t ∧ t.y ≠ (at_ 0x8000 [0x88]).y) ∧
    (∃ t, step (at_ 0x8000 [0xE6, 0x10]) = .next t ∧ t.mem ≠ (at_ 0x8000 [0xE6, 0x10]).mem) :=
  ⟨⟨_, rfl, by decide⟩, ⟨_, rfl, by decide⟩, ⟨_, rfl, by decide⟩, ⟨_, rfl, by decide⟩⟩

/-- InterruptAndDecimalFlagsAffectNothing: two different states alike but for I and D, and their steps. -/
theorem witness_alike : ∃ s s' t t' : State, s ≠ s' ∧ AlikeButID s s' ∧ step s = .next t ∧ step s' = .next t' := by
  refine ⟨at_ 0x8000 [0xE8], (at_ 0x8000 [0xE8]).setP 0x28, _, _, by decide, ?_, rfl, rfl⟩
  refine ⟨⟨rfl, rfl, rfl⟩, rfl, rfl, ⟨rfl, rfl, rfl⟩, ?_⟩
  intro f
  cases f <;> decide

/-- StoredByteIsFetchedNext: `STA $8003` at 0x8000 writes the next opcode. -/
theorem witness_stored_next : ∃ t, ((inside [0x03, 0x80]).setA 0xE8).mem.wf = true ∧
    HasOperand .sta .absolute ((inside [0x03, 0x80]).setA 0xE8) 0x8003 ∧
    exec (.sta .absolute) ((inside [0x03, 0x80]).setA 0xE8) = .next t ∧ t.pc = 0x8003 :=
  ⟨_, by decide, ⟨rfl, by decide⟩, rfl, rfl⟩

/-- ReadAfterWriteGivesTheByteWritten: at the two ends of M, and writing the byte that an unlisted address reads as. -/
theorem witness_write :
    (∃ t, (inside [0x05]).mem.wf = true ∧ memWrite (inside [0x05]) 0xFFFE 0x42 = .ok t) ∧
    (∃ t, (inside [0x05]).mem.wf = true ∧ memWrite (inside [0x05]) 0x0000 0x42 = .ok t) ∧
    (∃ t, (inside [0x05]).mem.wf = true ∧ memWrite (inside [0x05]) 0x8001 0x00 = .ok t) :=
  ⟨⟨_, by decide, rfl⟩, ⟨_, by decide, rfl⟩, ⟨_, by decide, rfl⟩⟩

/-- EveryByteIsReadableAndWritable and MissingByteRaisesBoundsFault meet at 0xFFFE and 0xFFFF. -/
theorem witness_bounds : (0xFFFE#16).toNat < Config.memSize ∧ (0x0000#16).toNat < Config.memSize ∧
    Config.memSize ≤ (0xFFFF#16).toNat ∧ (at_ 0xFFFF []).pc = 0xFFFF ∧ (inside []).mem.wf = true := by decide

/-- TwoByteReadIsLittleEndian: the highest and the lowest address a two-byte read may start at, and the two it may not. -/
theorem witness_word : (0xFFFD#16).toNat + 1 < Config.memSize ∧ (0x0000#16).toNat + 1 < Config.memSize ∧
    ¬ (0xFFFE#16).toNat + 1 < Config.memSize ∧ ¬ (0xFFFF#16).toNat + 1 < Config.memSize := by decide

/-- ResolverOneByteForms and ResolverIndirectForms: an operand byte, also with an index that wraps. -/
theorem witness_one_byte : memRead (inside [0x80]) (inside [0x80]).pc = .ok 0x80 ∧
    memRead ((inside [0xFF]).setX 0xFF) 0x8001 = .ok 0xFF := ⟨rfl, rfl⟩

/-- ResolverTwoByteForms: two operand bytes, also the last two of M. -/
theorem witness_two_bytes :
    (memRead (inside [0xF0, 0xFF]) 0x8001 = .ok 0xF0 ∧ memRead (inside [0xF0, 0xFF]) (0x8001 + 1) = .ok 0xFF) ∧
    (memRead (at_ 0xFFFD [0x34, 0x12]) 0xFFFD = .ok 0x34 ∧ memRead (at_ 0xFFFD [0x34, 0x12]) (0xFFFD + 1) = .ok 0x12) :=
  ⟨⟨rfl, rfl⟩, ⟨rfl, rfl⟩⟩

/-- PointerWrapMattersOnlyAtFF: a pointer at 0xFE, in both indirect modes. -/
theorem witness_pointer (m : Mode) : ∀ b, memRead (inside [0xFE]) (inside [0xFE]).pc = .ok b →
    (m = .indirectX → b + (inside [0xFE]).x ≠ 0xFF) ∧ (m = .indirectY → b ≠ 0xFF) := by
  intro b h
  have hb : (Except.ok 0xFE#8 : Except Fault Byte) = .ok b := h
  cases hb
  exact ⟨fun _ => by decide, fun _ => by decide⟩

/-- UnresolvableModesRaiseUsageError: all four modes. -/
theorem witness_unresolvable : Mode.indirect.resolvable = false ∧ Mode.implied.resolvable = false ∧
    Mode.relative.resolvable = false ∧ Mode.noneAddressing.resolvable = false := by decide

/-- SetZNFollowsTheValue: a next state of each of its instructions, with the address of each memory form. -/
theorem witness_setzn :
    (∃ t, exec (.lda .immediate) (inside [0x10]) = .next t) ∧ (∃ t, exec (.and .immediate) (inside [0x10]) = .next t) ∧
    (∃ t, exec (.eor .immediate) (inside [0x10]) = .next t) ∧ (∃ t, exec (.asl .accumulator) (inside [0x10]) = .next t) ∧
    (∃ t, exec (.ldx .immediate) (inside [0x10]) = .next t) ∧ (∃ t, exec (.ldy .immediate) (inside [0x10]) = .next t) ∧
    (∃ t, (inside [0x10]).mem.wf = true ∧ resolve .asl .zeroPage (inside [0x10]) = .ok (.addr 0x0010) ∧
      exec (.asl .zeroPage) (inside [0x10]) = .next t) :=
  ⟨⟨_, rfl⟩, ⟨_, rfl⟩, ⟨_, rfl⟩, ⟨_, rfl⟩, ⟨_, rfl⟩, ⟨_, rfl⟩, ⟨_, by decide, rfl, rfl⟩⟩

/-- LoadsReadTheOperand: an operand of each load, the highest operand byte among them. -/
theorem witness_loads :
    HasOperand .lda .immediate (inside [0x05]) 0x8001 ∧ HasOperand .lda .absolute (inside [0xFE, 0xFF]) 0xFFFE ∧
    HasOperand .ldx .zeroPageY ((inside [0x10]).setY 0xF5) 0x0005 ∧
    HasOperand .ldy .absoluteX ((inside [0x34, 0x12]).setX 0x01) 0x1235 :=
  ⟨⟨rfl, by decide⟩, ⟨rfl, by decide⟩, ⟨rfl, by decide⟩, ⟨rfl, by decide⟩⟩

/-- StoreWritesTheAccumulator. -/
theorem witness_store : (inside [0x10]).mem.wf = true ∧ HasOperand .sta .zeroPage (inside [0x10]) 0x0010 ∧
    HasOperand .sta .absolute (inside [0xFE, 0xFF]) 0xFFFE := ⟨by decide, ⟨rfl, by decide⟩, ⟨rfl, by decide⟩⟩

/-- LogicalCombinesWithTheAccumulator. -/
theorem witness_logical : HasOperand .and .immediate (inside [0x3C]) 0x8001 ∧
    HasOperand .eor .absoluteX ((inside [0xF0, 0xFF]).setX 0x20) 0x0010 := ⟨⟨rfl, by decide⟩, ⟨rfl, by decide⟩⟩

/-- ShiftLeftDoublesTheOperand. -/
theorem witness_shift : (inside [0x10]).mem.wf = true ∧ HasOperand .asl .zeroPage (inside [0x10]) 0x0010 :=
  ⟨by decide, ⟨rfl, by decide⟩⟩

/-- MemoryIncrementsAndDecrementsWrap. -/
theorem witness_incdec : (inside [0x10]).mem.wf = true ∧ HasOperand .inc .zeroPage (inside [0x10]) 0x0010 ∧
    HasOperand .dec .absolute (inside [0xFE, 0xFF]) 0xFFFE := ⟨by decide, ⟨rfl, by decide⟩, ⟨rfl, by decide⟩⟩

/-- ComparesWriteFlagsOnly and BitTestWritesFlagsOnly. -/
theorem witness_compares : HasOperand .cmp .immediate (inside [0x10]) 0x8001 ∧
    HasOperand .cpx .zeroPage (inside [0x10]) 0x0010 ∧ HasOperand .cpy .absolute (inside [0x00, 0x02]) 0x0200 ∧
    HasOperand .bit .zeroPage (inside [0x10]) 0x0010 :=
  ⟨⟨rfl, by decide⟩, ⟨rfl, by decide⟩, ⟨rfl, by decide⟩, ⟨rfl, by decide⟩⟩

/-- TakenBranchGoesToItsTarget, UntakenBranchPassesItsOffset: the offset byte at the last byte of M, and each flag both ways. -/
theorem witness_branches : (at_ 0xFFFE [0x04]).pc.toNat < Config.memSize ∧
    (at_ 0xFFFE [0x04]).flag .c = false ∧ ((at_ 0xFFFE [0x04]).setP 0x25).flag .c = true ∧
    (at_ 0xFFFE [0x04]).flag .z = false ∧ ((at_ 0xFFFE [0x04]).setP 0x26).flag .z = true ∧
    (at_ 0xFFFE [0x04]).flag .n = false ∧ ((at_ 0xFFFE [0x04]).setP 0xA4).flag .n = true ∧
    (at_ 0xFFFE [0x04]).flag .v = false ∧ ((at_ 0xFFFE [0x04]).setP 0x64).flag .v = true := by decide

/-- TakenBranchWithoutOffsetByteFaults: each flag both ways. -/
theorem witness_branch_fault : (at_ 0xFFFF []).pc = 0xFFFF ∧
    (at_ 0xFFFF []).flag .c = false ∧ ((at_ 0xFFFF []).setP 0xE7).flag .c = true ∧
    (at_ 0xFFFF []).flag .z = false ∧ ((at_ 0xFFFF []).setP 0xE7).flag .z = true ∧
    (at_ 0xFFFF []).flag .n = false ∧ ((at_ 0xFFFF []).setP 0xE7).flag .n = true ∧
    (at_ 0xFFFF []).flag .v = false ∧ ((at_ 0xFFFF []).setP 0xE7).flag .v = true := by decide

/-- UnlistedOpcodeIsOneByteNop: the lowest and the highest NONE code. -/
theorem witness_none_codes : 0x01#8 ∈ noneCodes ∧ 0xFF#8 ∈ noneCodes := by decide

/-- UnreachableOperandFaults: an operand byte at 0xFFFF, and a resolved address 0xFFFF. -/
theorem witness_unreachable : Instr.kind (.lda .absolute) ∈ resolverKinds ∧
    resolve .lda .absolute (at_ 0xFFFE [0x00]) = .error (.memoryBounds 0xFFFF 0xFFFD) ∧
    resolve .lda .absolute (inside [0xFF, 0xFF]) = .ok (.addr 0xFFFF) ∧ Config.memSize ≤ (0xFFFF#16).toNat :=
  ⟨by decide, rfl, rfl, by decide⟩

/-- UnreachableOperandFaults, its operand bytes: an instruction of each length with PC at 0xFFFF, one of three with PC at
0xFFFE. -/
theorem witness_operand_byte : (at_ 0xFFFF []).pc = 0xFFFF ∧ (at_ 0xFFFE []).pc = 0xFFFE ∧
    Instr.kind (.sta .indirectY) ∈ resolverKinds ∧ Instr.mode (.sta .indirectY) ∈ oneByteModes ∧
    Instr.kind (.inc .absoluteX) ∈ resolverKinds ∧ Instr.mode (.inc .absoluteX) ∈ twoByteModes ∧
    Instr.mode (.lda .immediate) ∈ oneByteModes := by decide

/-- LoadAndLogicalFrame. -/
theorem witness_frame_load :
    (∃ t, exec (.lda .immediate) (inside [0x05]) = .next t) ∧ (∃ t, exec (.and .zeroPage) (inside [0x10]) = .next t) ∧
    (∃ t, exec (.eor .absolute) (inside [0x00, 0x02]) = .next t) ∧
    (∃ t, exec (.ldx .immediate) (inside [0x05]) = .next t) ∧ (∃ t, exec (.ldy .immediate) (inside [0x05]) = .next t) :=
  ⟨⟨_, rfl⟩, ⟨_, rfl⟩, ⟨_, rfl⟩, ⟨_, rfl⟩, ⟨_, rfl⟩⟩

/-- IndexRegisterFrame. -/
theorem witness_frame_index : (∃ t, exec .tax (inside []) = .next t) ∧ (∃ t, exec .inx (inside []) = .next t) ∧
    (∃ t, exec .dex (inside []) = .next t) ∧ (∃ t, exec .tay (inside []) = .next t) ∧
    (∃ t, exec .iny (inside []) = .next t) ∧ (∃ t, exec .dey (inside []) = .next t) :=
  ⟨⟨_, rfl⟩, ⟨_, rfl⟩, ⟨_, rfl⟩, ⟨_, rfl⟩, ⟨_, rfl⟩, ⟨_, rfl⟩⟩

/-- StoreFrame. -/
theorem witness_frame_store : ∃ t, (inside [0x10]).mem.wf = true ∧ exec (.sta .zeroPage) (inside [0x10]) = .next t ∧
    resolve .sta .zeroPage (inside [0x10]) = .ok (.addr 0x0010) := ⟨_, by decide, rfl, rfl⟩

/-- ReadModifyWriteFrame: both forms of ASL, INC and DEC. -/
theorem witness_frame_modify : (inside [0x10]).mem.wf = true ∧
    (∃ t, exec (.asl .accumulator) (inside [0x10]) = .next t ∧ resolve .asl .accumulator (inside [0x10]) = .ok .acc) ∧
    (∃ t, exec (.asl .zeroPage) (inside [0x10]) = .next t ∧ resolve .asl .zeroPage (inside [0x10]) = .ok (.addr 0x0010)) ∧
    (∃ t, exec (.inc .zeroPage) (inside [0x10]) = .next t ∧ resolve .inc .zeroPage (inside [0x10]) = .ok (.addr 0x0010)) ∧
    (∃ t, exec (.dec .zeroPage) (inside [0x10]) = .next t ∧ resolve .dec .zeroPage (inside [0x10]) = .ok (.addr 0x0010)) :=
  ⟨by decide, ⟨_, rfl, rfl⟩, ⟨_, rfl, rfl⟩, ⟨_, rfl, rfl⟩, ⟨_, rfl, rfl⟩⟩

/-- CompareAndBitFrame. -/
theorem witness_frame_compare :
    (∃ t, exec (.cmp .immediate) (inside [0x05]) = .next t) ∧ (∃ t, exec (.cpx .zeroPage) (inside [0x10]) = .next t) ∧
    (∃ t, exec (.cpy .absolute) (inside [0x00, 0x02]) = .next t) ∧ (∃ t, exec (.bit .zeroPage) (inside [0x10]) = .next t) :=
  ⟨⟨_, rfl⟩, ⟨_, rfl⟩, ⟨_, rfl⟩, ⟨_, rfl⟩⟩

/-- ControlAndFlagFrame: a branch taken, one not taken, the flag clears, NONE and BRK. -/
theorem witness_frame_control :
    (∃ t, exec .bne (inside [0x04]) = .next t) ∧ (∃ t, exec .beq (inside [0x04]) = .next t) ∧
    (∃ t, exec .clc (inside []) = .next t) ∧ (∃ t, exec .cld (inside []) = .next t) ∧
    (∃ t, exec .cli (inside []) = .next t) ∧ (∃ t, exec .clv (inside []) = .next t) ∧
    (∃ t, exec (.noneOp 0xEA) (inside []) = .next t) ∧ (∃ t, exec .brk (inside []) = .next t) :=
  ⟨⟨_, rfl⟩, ⟨_, rfl⟩, ⟨_, rfl⟩, ⟨_, rfl⟩, ⟨_, rfl⟩, ⟨_, rfl⟩, ⟨_, rfl⟩, ⟨_, rfl⟩⟩

/-- ResetReadsTheVector, ResetIsIdempotent: each run state in which the host may act. -/
theorem witness_reset : State.new.rs.hostMayAct = true ∧ (State.new.setRS .halted).rs.hostMayAct = true ∧
    (State.new.setRS .bounded).rs.hostMayAct = true ∧ ∃ t, hostReset State.new = .next t :=
  ⟨rfl, rfl, rfl, _, rfl⟩

/-- LoadCopiesTheProgramThenTheVector, RunStartsTheLoop: the longest program that fits and the shortest that does not. -/
theorem witness_load : State.new.mem.wf = true ∧ State.new.rs.hostMayAct = true ∧
    (List.replicate 0x7FFF 0xEA#8).length ≤ 0x7FFF ∧ 0x7FFF < (List.replicate 0x8000 0xEA#8).length := by
  refine ⟨rfl, rfl, ?_, ?_⟩ <;> simp only [List.length_replicate] <;> decide

/-- LoadCopiesTheProgramThenTheVector: a program byte that the vector does not overwrite, and a byte on each side of it. -/
theorem witness_load_bytes : 0 < [0xA9#8].length ∧ 0x8000 + 0 ≠ 0xFFFC ∧ 0x8000 + 0 ≠ 0xFFFD ∧
    0x7FFF < 0x8000 ∧ 0x8000 + [0xA9#8].length ≤ 0x8001 := by decide

/-- RunningAndFaultedAdmitNoHostOperation: every run state, and the two ends of M. -/
theorem witness_no_host : (at_ 0x8000 []).rs = .running ∧ (State.new.takeFault (.loadCapacity 0x8000)).rs = .faulted ∧
    State.new.rs = .idle ∧ (State.new.setRS .halted).rs = .halted ∧ (State.new.setRS .bounded).rs = .bounded ∧
    (0xFFFE#16).toNat < Config.memSize ∧ ¬ (0xFFFF#16).toNat < Config.memSize ∧ State.new.mem.wf = true := by decide

/-- AssembledBranchReachesItsTarget: the two ends of the range, one past each, and a state that runs the first. -/
theorem witness_assembled :
    branchOffset 0x8000 0x7F82 = some 0x80 ∧ branchOffset 0x8000 0x8081 = some 0x7F ∧
    branchOffset 0x8000 0x7F81 = none ∧ branchOffset 0x8000 0x8082 = none ∧
    ((inside [0x80]).setP 0x26).pc = 0x8000 + 1 ∧ ((inside [0x80]).setP 0x26).pc.toNat < Config.memSize ∧
    ((inside [0x80]).setP 0x26).mem.read 0x8001 = 0x80 ∧ ((inside [0x80]).setP 0x26).flag .z = true ∧
    (inside [0x80]).mem.read 0x8001 = 0x80 ∧ (inside [0x80]).flag .z = false ∧
    (inside [0x80]).flag .c = false ∧ ((inside [0x80]).setP 0xE5).flag .c = true ∧
    (inside [0x80]).flag .n = false ∧ ((inside [0x80]).setP 0xE5).flag .n = true ∧
    (inside [0x80]).flag .v = false ∧ ((inside [0x80]).setP 0xE5).flag .v = true := by decide

end Sys2Proof.Tests
end

section
/-! Z and N of a result (10_state.md R30): what `setZN` writes, and that each instruction with a result ends on it. -/

namespace Sys2Proof.Proofs.ZeroNegative

open Sys2Proof.Machine Sys2Proof.Safety

theorem znOf_setZN (v p : Byte) : ZNOf v p (setZN v p) :=
  ⟨getFlag_z_setZN v p, getFlag_n_setZN v p, fun _ hz hn => getFlag_setZN_other hz hn v p⟩

/-- A state whose P was last written by `setZN` has Z and N of that value, whatever P was before. -/
theorem znSet_of_p_eq_setZN {v p : Byte} {t : State} (h : t.p = setZN v p) : ZNSet v t := by
  simp [ZNSet, h]

/-- The instructions with their result in A. -/
theorem exec_znSet_a {m : Mode} {s t : State}
    (h : exec (.lda m) s = .next t ∨ exec (.and m) s = .next t ∨ exec (.eor m) s = .next t ∨
      exec (.asl .accumulator) s = .next t) : ZNSet t.a t := by
  rcases h with h | h | h | h
  case inr.inr.inr =>
    rw [exec, execAsl_acc] at h
    cases h
    exact znSet_of_p_eq_setZN rfl
  all_goals
    obtain ⟨v, -, rfl⟩ := onOperand_next.1 h
    exact znSet_of_p_eq_setZN rfl

/-- The instructions with their result in X. -/
theorem exec_znSet_x {m : Mode} {s t : State}
    (h : exec (.ldx m) s = .next t ∨ exec .tax s = .next t ∨ exec .inx s = .next t ∨ exec .dex s = .next t) :
    ZNSet t.x t := by
  rcases h with h | h | h | h
  case inl =>
    obtain ⟨v, -, rfl⟩ := onOperand_next.1 h
    exact znSet_of_p_eq_setZN rfl
  all_goals
    cases h
    exact znSet_of_p_eq_setZN rfl

/-- The instructions with their result in Y. -/
theorem exec_znSet_y {m : Mode} {s t : State}
    (h : exec (.ldy m) s = .next t ∨ exec .tay s = .next t ∨ exec .iny s = .next t ∨ exec .dey s = .next t) :
    ZNSet t.y t := by
  rcases h with h | h | h | h
  case inl =>
    obtain ⟨v, -, rfl⟩ := onOperand_next.1 h
    exact znSet_of_p_eq_setZN rfl
  all_goals
    cases h
    exact znSet_of_p_eq_setZN rfl

/-- A read-modify-write whose flags end with `setZN` of the byte written leaves Z and N of the byte that its operand's
address then holds. The canonical form of M is what makes that byte readable back. -/
theorem modifyOperand_znSet {k : Kind} {m : Mode} {s t : State} {a : Addr} {f : Byte → Byte} {g : Byte → Byte → Byte}
    (hg : ∀ v p, ∃ q, g v p = setZN (f v) q) (hw : s.mem.wf = true) (ha : resolve k m s = .ok (.addr a))
    (h : modifyOperand k m s f g = .next t) : ZNSet (t.mem.read a.toNat) t := by
  obtain ⟨b, hb, -, rfl⟩ := modifyOperand_next.1 h
  obtain rfl : a = b := by simpa [ha] using hb
  obtain ⟨q, hq⟩ := hg (s.mem.read a.toNat) s.p
  refine znSet_of_p_eq_setZN (p := q) ?_
  simpa [Memory.read_write_same _ _ _ hw] using hq

/-- The memory forms of ASL: an operand with an address is not the accumulator. -/
theorem exec_asl_znSet_mem {m : Mode} {s t : State} {a : Addr} (hw : s.mem.wf = true)
    (ha : resolve .asl m s = .ok (.addr a)) (h : exec (.asl m) s = .next t) : ZNSet (t.mem.read a.toNat) t := by
  have hm : m ≠ .accumulator := by
    rintro rfl
    cases ha
  rw [exec, execAsl_memory hm] at h
  exact modifyOperand_znSet (fun _ _ => ⟨_, rfl⟩) hw ha h

/-- Settles O28: `setZN` by the flag laws; each instruction by the last write of P that its executor makes. -/
theorem setZNFollowsTheValue : Obligations.SetZNFollowsTheValue :=
  ⟨znOf_setZN, fun _ _ _ => ⟨exec_znSet_a, exec_znSet_x, exec_znSet_y, fun _ hw =>
    ⟨exec_asl_znSet_mem hw, modifyOperand_znSet (fun _ _ => ⟨_, rfl⟩) hw,
      modifyOperand_znSet (fun _ _ => ⟨_, rfl⟩) hw⟩⟩⟩

end Sys2Proof.Proofs.ZeroNegative
end

section
/-! Memory and the address resolver (20_memory.md R51 to R67): every byte of M answers an access, and what the resolver's
forms answer, as numbers. -/

namespace Sys2Proof.Proofs.MemoryResolver

open Sys2Proof.Machine Sys2Proof.Safety

/-! ### Widths and byte order, as numbers -/

@[simp] theorem toNat_zext16 (b : Byte) : (zext16 b).toNat = b.toNat :=
  BitVec.toNat_setWidth_of_le (by decide)

theorem toNat_word16 (hi lo : Byte) : (word16 hi lo).toNat = lo.toNat + 256 * hi.toNat := by
  rw [word16, BitVec.toNat_append, ← Nat.shiftLeft_add_eq_or_of_lt lo.isLt, Nat.shiftLeft_eq]
  omega

/-- An index added to a 16-bit base wraps modulo 2^16. -/
theorem toNat_add_zext16 (a : Addr) (i : Byte) : (a + zext16 i).toNat = (a.toNat + i.toNat) % 65536 := by
  rw [BitVec.toNat_add, toNat_zext16]

/-- An index added to a zero-page byte wraps modulo 256: the sum never leaves page zero. -/
theorem toNat_zext16_add (b i : Byte) : (zext16 (b + i)).toNat = (b.toNat + i.toNat) % 256 := by
  rw [toNat_zext16, BitVec.toNat_add]

/-! ### The operand bytes at PC -/

theorem fromByte_of_memRead {s : State} {b : Byte} {f : Byte → Except Fault Addr} {a : Addr}
    (hb : memRead s s.pc = .ok b) (ha : f b = .ok a) : fromByte s f = .ok (.addr a) := by
  simp [fromByte, hb, ha]

/-- The zero-page forms: what the operand byte gives is always an address. -/
theorem fromByte_ok_of_memRead {s : State} {b : Byte} (hb : memRead s s.pc = .ok b) (g : Byte → Addr) :
    fromByte s (fun v => .ok (g v)) = .ok (.addr (g b)) :=
  fromByte_of_memRead hb rfl

theorem memRead16_of_memRead {s : State} {a : Addr} {lo hi : Byte} (hlo : memRead s a = .ok lo)
    (hhi : memRead s (a + 1#16) = .ok hi) : memRead16 s a = .ok (word16 hi lo) := by
  simp [memRead16, hlo, hhi]

theorem fromWord_of_memRead {s : State} {lo hi : Byte} (hlo : memRead s s.pc = .ok lo)
    (hhi : memRead s (s.pc + 1#16) = .ok hi) (f : Addr → Addr) :
    fromWord s f = .ok (.addr (f (word16 hi lo))) := by
  simp [fromWord, memRead16_of_memRead hlo hhi]

/-! ### The zero-page pointer (R63) -/

/-- Under `zeroPage` the high byte of a pointer never leaves page zero. -/
theorem toNat_zpPtrHigh_zeroPage (p : Byte) : (zpPtrHigh .zeroPage p).toNat = (p.toNat + 1) % 256 := by
  unfold zpPtrHigh
  split
  · next h => subst h; rfl
  · next h =>
    have : p.toNat ≠ 255 := fun e => h (BitVec.eq_of_toNat_eq e)
    have : p.toNat < 256 := p.isLt
    rw [BitVec.toNat_add, toNat_zext16, BitVec.toNat_ofNat]
    omega

/-- Under `linear` the high byte of a pointer is always the byte after the low one. -/
theorem toNat_zpPtrHigh_linear (p : Byte) : (zpPtrHigh .linear p).toNat = p.toNat + 1 := by
  unfold zpPtrHigh
  split
  · next h => subst h; rfl
  · have : p.toNat < 256 := p.isLt
    rw [BitVec.toNat_add, toNat_zext16, BitVec.toNat_ofNat]
    omega

/-- Neither byte of a zero-page pointer is at 0xFFFF, so reading it never faults. -/
theorem zpPtrHigh_lt_memSize (w : ZpPtrWrap) (p : Byte) : (zpPtrHigh w p).toNat < Config.memSize := by
  have : p.toNat < 256 := p.isLt
  rw [Config.memSize]
  cases w with
  | zeroPage => rw [toNat_zpPtrHigh_zeroPage]; omega
  | linear => rw [toNat_zpPtrHigh_linear]; omega

theorem zext16_lt_memSize (p : Byte) : (zext16 p).toNat < Config.memSize := by
  have : p.toNat < 256 := p.isLt
  rw [Config.memSize, toNat_zext16]
  omega

/-- Reading a zero-page pointer answers the value the statements name, at every pointer and under each wrap. -/
theorem readZpPtr_eq_pointerValue (w : ZpPtrWrap) (s : State) (p : Byte) :
    ∃ a, readZpPtr w s p = .ok a ∧ a.toNat = pointerValue w s.mem p.toNat := by
  refine ⟨word16 (s.mem.read (zpPtrHigh w p).toNat) (s.mem.read (zext16 p).toNat), ?_, ?_⟩
  · simp [readZpPtr, memRead_of_lt (zext16_lt_memSize p), memRead_of_lt (zpPtrHigh_lt_memSize w p)]
  · rw [toNat_word16, toNat_zext16]
    cases w with
    | zeroPage => rw [toNat_zpPtrHigh_zeroPage]; rfl
    | linear => rw [toNat_zpPtrHigh_linear]; rfl

/-! ### The statements -/

/-- Settles O25: an operand byte and a pointer that is always readable; the index is added before the pointer read for
Indirect_X, after it for Indirect_Y. -/
theorem resolverIndirectForms : Obligations.ResolverIndirectForms := by
  intro w k s b hb
  constructor
  · obtain ⟨a, ha, hv⟩ := readZpPtr_eq_pointerValue w s (b + s.x)
    exact ⟨a, fromByte_of_memRead hb ha, by rw [hv, BitVec.toNat_add]⟩
  · obtain ⟨a, ha, hv⟩ := readZpPtr_eq_pointerValue w s b
    have hi : indexed (readZpPtr w s b) s.y = .ok (a + zext16 s.y) := by rw [ha]; rfl
    exact ⟨a + zext16 s.y, fromByte_of_memRead hb hi, by rw [toNat_add_zext16, hv]⟩

/-- Settles O20: both accesses succeed below MEM_SIZE; the canonical form of M makes the byte written readable back. -/
theorem everyByteIsReadableAndWritable : Obligations.EveryByteIsReadableAndWritable :=
  fun s a v ha => ⟨memRead_of_lt ha, _, memWrite_of_lt ha v, Memory.read_write_same s.mem a.toNat v⟩

/-- Settles O23: Immediate and Accumulator read nothing; the zero-page forms turn one operand byte into an address. -/
theorem resolverOneByteForms : Obligations.ResolverOneByteForms := by
  refine fun w k s => ⟨rfl, rfl, fun b hb => ⟨?_, ?_, ?_⟩⟩
  · exact ⟨zext16 b, fromByte_ok_of_memRead hb _, toNat_zext16 b⟩
  · exact ⟨zext16 (b + s.x), fromByte_ok_of_memRead hb _, toNat_zext16_add b s.x⟩
  · exact ⟨zext16 (b + s.y), fromByte_ok_of_memRead hb _, toNat_zext16_add b s.y⟩

/-- Settles O24: the operand word is little-endian, and the indexed forms add to it modulo 2^16. -/
theorem resolverTwoByteForms : Obligations.ResolverTwoByteForms := by
  refine fun w k s lo hi hlo hhi => ⟨?_, ?_, ?_⟩
  · exact ⟨word16 hi lo, fromWord_of_memRead hlo hhi _, toNat_word16 hi lo⟩
  · exact ⟨word16 hi lo + zext16 s.x, fromWord_of_memRead hlo hhi _, by rw [toNat_add_zext16, toNat_word16]⟩
  · exact ⟨word16 hi lo + zext16 s.y, fromWord_of_memRead hlo hhi _, by rw [toNat_add_zext16, toNat_word16]⟩

end Sys2Proof.Proofs.MemoryResolver
end

section
/-! The opcode table and the resolver (30_encoding.md R109): which modes the rows give the executors that call the resolver,
what an executor can fault with, and that no opcode's executor reaches the resolver's usage error. -/

namespace Sys2Proof.Proofs.OpcodeModes

open Sys2Proof.Machine Sys2Proof.Safety

/-! ### The rows of the table -/

theorem mem_of_lookupOpcode {rows : List (Byte × Instr)} {op : Byte} {i : Instr} (h : lookupOpcode rows op = some i) :
    (op, i) ∈ rows := by
  induction rows with
  | nil => cases h
  | cons r rest ih =>
    obtain ⟨c, j⟩ := r
    rw [lookupOpcode] at h
    split at h
    · next hc =>
      cases h
      rw [hc]
      exact List.mem_cons_self
    · exact List.mem_cons_of_mem _ (ih h)

/-- An opcode byte is a row of the grid, or decodes to the NONE sentinel that carries it (R95, R96). -/
theorem decodeOpcode_mem_or_none (op : Byte) : (op, decodeOpcode op) ∈ opcodeGrid ∨ decodeOpcode op = .noneOp op := by
  unfold decodeOpcode
  split
  · next i hi => exact .inl (mem_of_lookupOpcode hi)
  · exact .inr rfl

/-- The rows whose executor calls the resolver: 89 rows, read one by one. Accumulator is ASL's alone, whose executor is
the only one with a form for the sentinel. -/
theorem opcodeGrid_resolver_modes : ∀ r ∈ opcodeGrid, r.2.kind ∈ resolverKinds →
    r.2.mode.resolvable = true ∧ (r.2.mode = .accumulator → r.2.kind = .asl) := by decide

theorem decodeOpcode_resolver_modes {op : Byte} (h : (decodeOpcode op).kind ∈ resolverKinds) :
    (decodeOpcode op).mode.resolvable = true ∧
      ((decodeOpcode op).mode = .accumulator → (decodeOpcode op).kind = .asl) := by
  rcases decodeOpcode_mem_or_none op with hm | hn
  · exact opcodeGrid_resolver_modes _ hm h
  · rw [hn] at h
    exact absurd h (by decide : Kind.noneOp ∉ resolverKinds)

/-! ### The faults of the executors -/

/-- An executor without an accumulator form: the mode it cannot use is one the resolver rejects, or Accumulator. -/
theorem fault_of_resolverKind {k : Kind} {m : Mode} {s : State} {f : Fault} (hk : k ∈ resolverKinds) (hne : k ≠ .asl)
    (h : f = .memoryBounds 0xFFFF#16 s.ia ∨ ((m.resolvable = false ∨ m = .accumulator) ∧ f = .usageError m k)) :
    f = .memoryBounds 0xFFFF#16 s.ia ∨
      (k ∈ resolverKinds ∧ (m.resolvable = false ∨ (m = .accumulator ∧ k ≠ .asl)) ∧ f = .usageError m k) :=
  h.imp_right fun ⟨hm, hf⟩ => ⟨hk, hm.imp_right fun hacc => ⟨hacc, hne⟩, hf⟩

/-- A fault of an executor is a bounds fault at 0xFFFF, or the usage error of one that calls the resolver in a mode it has
no form for: a mode the resolver rejects, or Accumulator for any instruction but ASL. -/
theorem exec_fault {i : Instr} {s : State} {f : Fault} (h : exec i s = .fault f) :
    f = .memoryBounds 0xFFFF#16 s.ia ∨
      (i.kind ∈ resolverKinds ∧ (i.mode.resolvable = false ∨ (i.mode = .accumulator ∧ i.kind ≠ .asl)) ∧
        f = .usageError i.mode i.kind) := by
  cases i <;> dsimp only [Instr.kind, Instr.mode]
  case lda | ldx | ldy | and | eor | cmp | cpx | cpy | bit =>
    exact fault_of_resolverKind (by decide) (by decide) (readOperand_error (onOperand_fault.1 h))
  case sta => exact fault_of_resolverKind (by decide) (by decide) (storeOperand_fault h)
  case inc | dec => exact fault_of_resolverKind (by decide) (by decide) (modifyOperand_fault h)
  case asl m =>
    by_cases hacc : m = .accumulator
    · subst hacc
      rw [exec, execAsl_acc] at h
      cases h
    · rw [exec, execAsl_memory hacc] at h
      exact (modifyOperand_fault h).imp_right fun ⟨hm, hf⟩ => ⟨by decide, .inl (hm.resolve_right hacc), hf⟩
  case bcc | bcs | beq | bne | bmi | bpl | bvc | bvs =>
    obtain ⟨-, hpc, hf⟩ := branch_fault.1 h
    exact .inl (hpc ▸ hf)
  case tax | tay | inx | iny | dex | dey | clc | cld | cli | clv | brk | noneOp => cases h

/-- The table gives no executor a mode it has no form for, so none raises a usage error. -/
theorem exec_decodeOpcode_ne_usageError (op : Byte) (s : State) (m : Mode) (k : Kind) :
    exec (decodeOpcode op) s ≠ .fault (.usageError m k) := by
  intro h
  rcases exec_fault h with hb | ⟨hk, hm, -⟩
  · cases hb
  · obtain ⟨hres, hasl⟩ := decodeOpcode_resolver_modes hk
    rcases hm with hrej | ⟨hacc, hne⟩
    · exact absurd hres (by simp [hrej])
    · exact hne (hasl hacc)

/-- Settles O5: the rows give the executors that call the resolver only modes they have a form for, of which the second
clause is the contrapositive; a usage error would need another mode. -/
theorem usageErrorIsUnreachable : Obligations.UsageErrorIsUnreachable :=
  ⟨fun _ hk => (decodeOpcode_resolver_modes hk).1,
    fun _ hm hk => absurd (decodeOpcode_resolver_modes hk).1 (by simp [hm]), exec_decodeOpcode_ne_usageError⟩

end Sys2Proof.Proofs.OpcodeModes
end

section
/-! The compare function (43_compare_bit.md R200): the flags it writes, and that an executor which writes P alone keeps the
register it compares. -/

namespace Sys2Proof.Proofs.Compare

open Sys2Proof.Machine Sys2Proof.Safety

/-- No borrow: C is the unsigned order of the two bytes. `setZN` comes after it and keeps it. -/
@[simp] theorem getFlag_c_compareFlags (r v p : Byte) :
    getFlag .c (compareFlags r v p) = decide (v.toNat ≤ r.toNat) := by
  rw [compareFlags, getFlag_setZN_other (by decide) (by decide), getFlag_putFlag_same, BitVec.ule]

/-- The difference modulo 256 is zero only for equal bytes. -/
@[simp] theorem getFlag_z_compareFlags (r v p : Byte) : getFlag .z (compareFlags r v p) = decide (r = v) := by
  rw [compareFlags, getFlag_z_setZN, beq_eq_decide, decide_eq_decide]
  exact sub_eq_zero

@[simp] theorem getFlag_n_compareFlags (r v p : Byte) :
    getFlag .n (compareFlags r v p) = (r - v).getLsbD 7 :=
  getFlag_n_setZN (r - v) _

theorem getFlag_compareFlags_other {f : Flag} (hc : f ≠ .c) (hz : f ≠ .z) (hn : f ≠ .n) (r v p : Byte) :
    getFlag f (compareFlags r v p) = getFlag f p := by
  rw [compareFlags, getFlag_setZN_other hz hn, getFlag_putFlag_other hc]

theorem compareOf_compareFlags (r v p : Byte) : CompareOf r v p (compareFlags r v p) :=
  ⟨getFlag_c_compareFlags r v p, getFlag_z_compareFlags r v p, getFlag_n_compareFlags r v p,
    fun _ hc hz hn => getFlag_compareFlags_other hc hz hn r v p⟩

/-- An instruction that reads an operand and writes nothing but P keeps A, X and Y. -/
theorem sameRegs_of_onOperand_setP {k : Kind} {m : Mode} {s t : State} {g : Byte → Byte}
    (h : onOperand k m s (fun v => s.setP (g v)) = .next t) : SameRegs s t := by
  obtain ⟨v, -, rfl⟩ := onOperand_next.1 h
  exact ⟨rfl, rfl, rfl⟩

/-- The three compares end on the one shape: an operand read, P written. -/
theorem exec_compare_sameRegs {m : Mode} {s t : State}
    (h : exec (.cmp m) s = .next t ∨ exec (.cpx m) s = .next t ∨ exec (.cpy m) s = .next t) : SameRegs s t := by
  rcases h with h | h | h <;> exact sameRegs_of_onOperand_setP h

/-- Settles O29: the flags one by one by the flag laws; the compares write P alone, so each keeps its register. -/
theorem compareSetsCarryZeroNegative : Obligations.CompareSetsCarryZeroNegative := by
  refine ⟨compareOf_compareFlags, fun m s t => ⟨fun h => ?_, fun h => ?_, fun h => ?_⟩⟩
  · obtain ⟨ha, -, -⟩ := exec_compare_sameRegs (.inl h)
    exact ha
  · obtain ⟨-, hx, -⟩ := exec_compare_sameRegs (.inr (.inl h))
    exact hx
  · obtain ⟨-, -, hy⟩ := exec_compare_sameRegs (.inr (.inr h))
    exact hy

end Sys2Proof.Proofs.Compare
end

section
/-! The reset operation (70_reset_and_hazards.md R291, R292): what it writes is fixed by the memory it keeps and by whether the
step counter exists, so that a second reset changes nothing. -/

namespace Sys2Proof.Proofs.Reset

open Sys2Proof.Machine

/-- `reset` leaves the step counter at 0 where it exists, so zeroing it again does nothing. -/
@[simp] theorem zeroSteps_resetState (s : State) : (resetState s).zeroSteps = resetState s := by
  have hsteps : ((resetState s).steps.map fun _ => 0) = s.steps.map fun _ => 0 := by
    rw [resetState_steps, Option.map_map]
    rfl
  exact congrArg (resetState s).setSteps hsteps

/-- The registers and RS are constants, and PC is read from the memory that the first reset kept. -/
@[simp] theorem resetState_resetState (s : State) : resetState (resetState s) = resetState s :=
  calc resetState (resetState s)
    _ = (resetState s).zeroSteps := rfl
    _ = resetState s := zeroSteps_resetState s

/-- Reset leaves the core IDLE, where the host may act, so the reset that follows is carried out. -/
theorem hostReset_resetState (s : State) : hostReset (resetState s) = .next (resetState s) :=
  whenAllowed_next.2 ⟨rfl, congrArg Host.Outcome.next (resetState_resetState s)⟩

/-- Settles O55: a reset that is carried out answers `resetState`, which a second reset answers again. -/
theorem resetIsIdempotent : Obligations.ResetIsIdempotent := by
  intro s t h
  obtain ⟨-, ht⟩ := whenAllowed_next.1 h
  cases ht
  exact hostReset_resetState s

end Sys2Proof.Proofs.Reset
end

section
/-! The decoder and the encoder (30_encoding.md R90 to R104): what each answers, as an equivalence, and that the opcode table
and its inverse agree, so that each undoes the other. -/

namespace Sys2Proof.Proofs.Encoding

open Sys2Proof.Machine Sys2Proof.Safety Sys2Proof.Proofs.OpcodeModes

/-! ### Lengths -/

theorem mode_length_pos (m : Mode) : 1 ≤ m.length := by cases m <;> decide

theorem mode_length_le_three (m : Mode) : m.length ≤ 3 := by cases m <;> decide

/-! ### What the encoder and the decoder answer -/

theorem encode_eq_some {i : Instr} {operands bytes : List Byte} :
    encode i operands = some bytes ↔
      ∃ op, opcode i = some op ∧ operands.length + 1 = i.len ∧ op :: operands = bytes := by
  unfold encode
  cases opcode i <;> simp

/-- The decoder takes the opcode's own instruction and splits the bytes after it at the instruction's length. -/
theorem decode_cons_ok {op : Byte} {bytes operands rest : List Byte} {i : Instr} :
    decode (op :: bytes) = .ok (i, operands, rest) ↔
      decodeOpcode op = i ∧ operands.length + 1 = i.len ∧ operands ++ rest = bytes := by
  have hpos : 1 ≤ (decodeOpcode op).len := mode_length_pos _
  constructor
  · intro h
    rw [decode] at h
    split at h
    · cases h
    · next hlen =>
      cases h
      refine ⟨rfl, ?_, List.take_append_drop _ _⟩
      rw [List.length_take]
      omega
  · rintro ⟨rfl, hlen, rfl⟩
    have hn : (decodeOpcode op).len - 1 = operands.length := by omega
    simp [decode, hn]

/-- The decoder fails on an opcode byte only where operand bytes are missing. -/
theorem decode_cons_error {op : Byte} {bytes : List Byte} {e : DecodeError} (h : decode (op :: bytes) = .error e) :
    bytes.length + 1 < (decodeOpcode op).len := by
  rw [decode] at h
  split at h
  · omega
  · cases h

/-! ### The opcode table and its inverse -/

/-- Only an instruction that a row of R94 or R95 holds has an opcode byte. -/
theorem wf_of_opcode {i : Instr} {op : Byte} (h : opcode i = some op) : i.wf = true := by
  cases i with
  | lda m | ldx m | ldy m | sta m | and m | eor m | asl m | inc m | dec m | cmp m | cpx m | cpy m | bit m =>
    cases m <;> cases h <;> rfl
  | noneOp c => exact (Option.ite_none_right_eq_some.1 h).1
  | tax | tay | inx | iny | dex | dey | bcc | bcs | beq | bne | bmi | bpl | bvc | bvs | clc | cld | cli | clv | brk => rfl

/-- The model's round trip of one instruction, for all of them. -/
theorem opcodeRoundTrip (i : Instr) : Laws.OpcodeRoundTrip.Statement i := by
  cases i with
  | lda m => exact Laws.OpcodeRoundTrip.lda m
  | ldx m => exact Laws.OpcodeRoundTrip.ldx m
  | ldy m => exact Laws.OpcodeRoundTrip.ldy m
  | sta m => exact Laws.OpcodeRoundTrip.sta m
  | tax => exact Laws.OpcodeRoundTrip.tax
  | tay => exact Laws.OpcodeRoundTrip.tay
  | and m => exact Laws.OpcodeRoundTrip.and m
  | eor m => exact Laws.OpcodeRoundTrip.eor m
  | asl m => exact Laws.OpcodeRoundTrip.asl m
  | inx => exact Laws.OpcodeRoundTrip.inx
  | iny => exact Laws.OpcodeRoundTrip.iny
  | dex => exact Laws.OpcodeRoundTrip.dex
  | dey => exact Laws.OpcodeRoundTrip.dey
  | inc m => exact Laws.OpcodeRoundTrip.inc m
  | dec m => exact Laws.OpcodeRoundTrip.dec m
  | cmp m => exact Laws.OpcodeRoundTrip.cmp m
  | cpx m => exact Laws.OpcodeRoundTrip.cpx m
  | cpy m => exact Laws.OpcodeRoundTrip.cpy m
  | bit m => exact Laws.OpcodeRoundTrip.bit m
  | bcc => exact Laws.OpcodeRoundTrip.bcc
  | bcs => exact Laws.OpcodeRoundTrip.bcs
  | beq => exact Laws.OpcodeRoundTrip.beq
  | bne => exact Laws.OpcodeRoundTrip.bne
  | bmi => exact Laws.OpcodeRoundTrip.bmi
  | bpl => exact Laws.OpcodeRoundTrip.bpl
  | bvc => exact Laws.OpcodeRoundTrip.bvc
  | bvs => exact Laws.OpcodeRoundTrip.bvs
  | clc => exact Laws.OpcodeRoundTrip.clc
  | cld => exact Laws.OpcodeRoundTrip.cld
  | cli => exact Laws.OpcodeRoundTrip.cli
  | clv => exact Laws.OpcodeRoundTrip.clv
  | brk => exact Laws.OpcodeRoundTrip.brk
  | noneOp op => exact Laws.OpcodeRoundTrip.noneOp op

/-- The table's inverse on the left: an instruction's opcode byte decodes to it. -/
theorem decodeOpcode_of_opcode {i : Instr} {op : Byte} (h : opcode i = some op) : decodeOpcode op = i := by
  obtain ⟨c, hc, hi⟩ := opcodeRoundTrip i (wf_of_opcode h)
  rw [h] at hc
  cases hc
  exact hi

theorem opcodeGrid_codes_nodup : (opcodeGrid.map Prod.fst).Nodup := by
  have hrising : (opcodeGrid.map Prod.fst).IsChain (· < ·) := by decide +kernel
  exact (List.isChain_iff_pairwise.1 hrising).imp BitVec.ne_of_lt

theorem noneCodes_nodup : noneCodes.Nodup := by
  have hrising : noneCodes.IsChain (· < ·) := by decide +kernel
  exact (List.isChain_iff_pairwise.1 hrising).imp BitVec.ne_of_lt

theorem disjoint_opcodeGrid_noneCodes : (opcodeGrid.map Prod.fst).Disjoint noneCodes := by
  intro op hgrid hnone
  obtain ⟨r, hr, rfl⟩ := List.mem_map.1 hgrid
  have hne := List.all_eq_true.1 (List.all_eq_true.1 noneCodes_unmapped _ hnone) r hr
  simp at hne

theorem card_byte : Fintype.card Byte = 256 := by rw [← FinEnum.card_eq_fintypeCard, FinEnum.card_bitVec]; rfl

/-- The 89 mapped codes and the 167 NONE codes are distinct, and so are all the 256 bytes (R95). -/
theorem mem_opcodeGrid_or_noneCodes (op : Byte) : op ∈ opcodeGrid.map Prod.fst ∨ op ∈ noneCodes := by
  have hnodup := opcodeGrid_codes_nodup.append noneCodes_nodup disjoint_opcodeGrid_noneCodes
  have hmapped : opcodeGrid.length = 89 := rfl
  have hnone : noneCodes.length = 167 := rfl
  have huniv := Finset.eq_univ_of_card (opcodeGrid.map Prod.fst ++ noneCodes).toFinset
    (by rw [List.toFinset_card_of_nodup hnodup, List.length_append, List.length_map, hmapped, hnone, card_byte])
  rw [← List.mem_append, ← List.mem_toFinset, huniv]
  exact Finset.mem_univ op

/-- The table's inverse on the right: the grid's rows are read one by one, and a NONE code is its own sentinel's. -/
theorem opcode_decodeOpcode (op : Byte) : opcode (decodeOpcode op) = some op := by
  have hgrid : ∀ r ∈ opcodeGrid, opcode r.2 = some r.1 := by decide
  rcases mem_opcodeGrid_or_noneCodes op with hm | hn
  · obtain ⟨⟨c, i⟩, hr, rfl⟩ := List.mem_map.1 hm
    rw [decodeOpcode_of_opcode (hgrid _ hr)]
    exact hgrid _ hr
  · rw [decode_noneCodes op hn]
    exact if_pos (List.contains_iff_mem.2 hn)

/-- No descriptor carries Indirect (R108). -/
theorem mode_decodeOpcode_ne_indirect (op : Byte) : (decodeOpcode op).mode ≠ .indirect := by
  have hgrid : ∀ r ∈ opcodeGrid, r.2.mode ≠ .indirect := by decide
  rcases decodeOpcode_mem_or_none op with hm | hn
  · exact hgrid _ hm
  · simp [hn, Instr.mode]

/-! ### The statements -/

/-- Settles O1: the encoder writes the opcode byte before the operand bytes, and the decoder reads the instruction off the
first and its length off the instruction. -/
theorem decodeGivesEncodedInstructionBack : Obligations.DecodeGivesEncodedInstructionBack := by
  constructor
  · intro i operands bytes rest h
    obtain ⟨op, hop, hlen, rfl⟩ := encode_eq_some.1 h
    exact decode_cons_ok.2 ⟨decodeOpcode_of_opcode hop, hlen, rfl⟩
  · intro i hwf operands hlen
    obtain ⟨op, hop, -⟩ := opcodeRoundTrip i hwf
    exact ⟨op :: operands, encode_eq_some.2 ⟨op, hop, hlen, rfl⟩, hlen⟩

/-- Settles O2: the opcode byte read is the decoded instruction's own, so encoding writes it back. -/
theorem decodedInstructionEncodesToItsBytes : Obligations.DecodedInstructionEncodesToItsBytes := by
  intro bytes i operands rest h
  cases bytes with
  | nil => cases h
  | cons op bytes =>
    obtain ⟨rfl, hlen, rfl⟩ := decode_cons_ok.1 h
    have hop := opcode_decodeOpcode op
    exact ⟨wf_of_opcode hop, op :: operands, encode_eq_some.2 ⟨op, hop, hlen, rfl⟩, rfl, hlen⟩

/-- With two bytes after it, the longest operand, an opcode byte decodes. -/
theorem decode_with_two_bytes (op b1 b2 : Byte) (rest : List Byte) : ∃ operands after,
    decode (op :: b1 :: b2 :: rest) = .ok (decodeOpcode op, operands, after) ∧
      operands ++ after = b1 :: b2 :: rest ∧ operands.length + 1 = (opcodeTable op).len := by
  cases h : decode (op :: b1 :: b2 :: rest) with
  | ok r =>
    obtain ⟨i, operands, after⟩ := r
    obtain ⟨rfl, hlen, hsplit⟩ := decode_cons_ok.1 h
    exact ⟨operands, after, rfl, hsplit, hlen⟩
  | error e =>
    have hshort := decode_cons_error h
    have : (decodeOpcode op).len ≤ 3 := mode_length_le_three _
    simp only [List.length_cons] at hshort
    omega

/-- Settles O4: the longest instruction has three bytes, and a row's mode and length are its instruction's. -/
theorem everyOpcodeByteDecodes : Obligations.EveryOpcodeByteDecodes := by
  refine ⟨decode_with_two_bytes, fun op => ?_, by decide, by decide, by decide, fun bytes e h => ?_⟩
  · exact ⟨rfl, mode_length_pos _, mode_length_le_three _, mode_decodeOpcode_ne_indirect op, rfl, rfl⟩
  · cases bytes with
    | nil => decide
    | cons op bytes => exact (decode_cons_error h).trans_le (mode_length_le_three _)

/-- Settles O3: the decoder evaluated on each word. -/
theorem writtenOutWordsDecode : Obligations.WrittenOutWordsDecode :=
  ⟨rfl, rfl, rfl, rfl, rfl, rfl, rfl, rfl, rfl, rfl, rfl, rfl, rfl, rfl, rfl⟩

end Sys2Proof.Proofs.Encoding
end

section
/-! The accesses to memory and the OPEN parameter (20_memory.md R51 to R63): which address has no byte, what a write leaves,
and that the wrap of a zero-page pointer shows at 0xFF alone. -/

namespace Sys2Proof.Proofs.MemoryAccess

open Sys2Proof.Machine Sys2Proof.Safety

/-! ### Which address has no byte -/

theorem eq_ffff_of_memSize_le {a : Addr} (h : Config.memSize ≤ a.toNat) : a = 0xFFFF#16 :=
  (not_inBounds_iff a).1 (by simpa [inBounds] using h)

/-- A two-byte read that meets 0xFFFF, with either of its bytes, faults there. -/
theorem memRead16_of_missing {s : State} {a : Addr} (ha : a = 0xFFFE#16 ∨ a = 0xFFFF#16) :
    memRead16 s a = .error (.memoryBounds 0xFFFF#16 s.ia) := by
  cases h : memRead16 s a with
  | error f => rw [memRead16_error h]
  | ok w =>
    obtain ⟨hlo, hhi, -⟩ := memRead16_ok.1 h
    rcases ha with rfl | rfl
    · exact absurd hhi (by decide)
    · exact absurd hlo (by decide)

/-! ### Writes -/

theorem Memory.read_write_other {m : Memory} (h : m.wf = true) {k j : Nat} (hj : j ≠ k) (v : Byte) :
    (m.write k v).read j = m.read j := by
  rw [Memory.read_write h, if_neg hj.symm]

/-- A read looks at M and PC only, and at one byte of M. -/
theorem memRead_setMem {s : State} {m : Memory} {a : Addr} (h : m.read a.toNat = s.mem.read a.toNat) :
    memRead (s.setMem m) a = memRead s a := by
  simp [memRead, memReadBy, State.ia, h]

/-! ### The OPEN parameter -/

theorem zpPtrHigh_of_ne {p : Byte} (hp : p ≠ 0xFF#8) (w : ZpPtrWrap) : zpPtrHigh w p = zext16 p + 1#16 := if_neg hp

theorem readZpPtr_eq_of_ne {p : Byte} (hp : p ≠ 0xFF#8) (w w' : ZpPtrWrap) (s : State) :
    readZpPtr w s p = readZpPtr w' s p := by
  simp only [readZpPtr, zpPtrHigh_of_ne hp]

theorem fromByte_congr {s : State} {f g : Byte → Except Fault Addr} (h : ∀ b, memRead s s.pc = .ok b → f b = g b) :
    fromByte s f = fromByte s g := by
  unfold fromByte
  split
  · rfl
  · next b hb => rw [h b hb]

/-- Any two wraps resolve a mode alike, unless it reads a pointer at 0xFF. -/
theorem resolveWith_eq_of_pointer_ne {m : Mode} {s : State}
    (h : ∀ b, memRead s s.pc = .ok b → (m = .indirectX → b + s.x ≠ 0xFF) ∧ (m = .indirectY → b ≠ 0xFF))
    (w w' : ZpPtrWrap) (k : Kind) : resolveWith w k m s = resolveWith w' k m s := by
  cases m
  case indirectX => exact fromByte_congr fun b hb => readZpPtr_eq_of_ne ((h b hb).1 rfl) w w' s
  case indirectY =>
    exact fromByte_congr fun b hb => congrArg (indexed · s.y) (readZpPtr_eq_of_ne ((h b hb).2 rfl) w w' s)
  all_goals rfl

/-! ### The statements -/

/-- Settles O26: the two values with each other, and the constant of this hardware with either. -/
theorem pointerWrapMattersOnlyAtFF : Obligations.PointerWrapMattersOnlyAtFF :=
  fun k _ _ h => ⟨resolveWith_eq_of_pointer_ne h _ _ k, resolveWith_eq_of_pointer_ne h _ _ k⟩

/-- Settles O19: by the laws of M, which ask for its canonical form. -/
theorem readAfterWriteGivesTheByteWritten : Obligations.ReadAfterWriteGivesTheByteWritten := by
  intro s t a v hw h
  obtain ⟨ha, rfl⟩ := memWrite_ok.1 h
  refine ⟨memRead_ok.2 ⟨ha, Memory.read_write_same _ _ _ hw⟩, fun b hb => ?_, Memory.wf_write hw ha v, rfl⟩
  exact memRead_setMem (Memory.read_write_other hw (mt BitVec.eq_of_toNat_eq hb) v)

/-- Settles O21: 0xFFFF is the only such address, and each primitive faults on it. -/
theorem missingByteRaisesBoundsFault : Obligations.MissingByteRaisesBoundsFault := by
  intro s a v h
  have ha := eq_ffff_of_memSize_le h
  exact ⟨ha, memRead_error.2 ⟨ha, rfl⟩, memWrite_error.2 ⟨ha, rfl⟩,
    fun hpc => fetchOpcode_error.2 ⟨hpc.trans ha, by rw [hpc]⟩⟩

/-- Settles O22: the word of the two bytes, as a number, or the fault of the one that is missing. -/
theorem twoByteReadIsLittleEndian : Obligations.TwoByteReadIsLittleEndian := by
  refine fun s a => ⟨fun h => ?_, memRead16_of_missing⟩
  have hnext : (a + 1#16).toNat = a.toNat + 1 := by
    rw [Config.memSize] at h
    bv_omega
  refine ⟨_, memRead16_ok.2 ⟨by omega, by omega, rfl⟩, ?_⟩
  rw [MemoryResolver.toNat_word16, hnext]

end Sys2Proof.Proofs.MemoryAccess
end

section
/-! Operands that cannot be reached (20_memory.md R68, 60_exceptions.md R266, R267): the fault of the resolver or of the access
to the address it answers is the fault of the executor, whichever of the executors that call the resolver it is. -/

namespace Sys2Proof.Proofs.OperandFaults

open Sys2Proof.Machine Sys2Proof.Safety Sys2Proof.Proofs.MemoryAccess

/-! ### The executors' fault -/

/-- The operand cannot be reached: the resolver has a fault, or the address it answers has no byte. -/
def OperandFault (k : Kind) (m : Mode) (s : State) (f : Fault) : Prop :=
  resolve k m s = .error f ∨ ∃ a, resolve k m s = .ok (.addr a) ∧ Config.memSize ≤ a.toNat ∧ f = .memoryBounds a s.ia

/-- What the executors' shapes meet: no address, or one that neither a read nor a write can use. -/
theorem resolveAddr_of_operandFault {k : Kind} {m : Mode} {s : State} {f : Fault} (h : OperandFault k m s f) :
    resolveAddr k m s = .error f ∨
      ∃ a, resolveAddr k m s = .ok a ∧ memRead s a = .error f ∧ ∀ v, memWrite s a v = .error f := by
  rcases h with h | ⟨a, ha, hle, rfl⟩
  · exact .inl (by simp [resolveAddr, h])
  · have hffff := eq_ffff_of_memSize_le hle
    exact .inr ⟨a, resolveAddr_ok.2 ha, memRead_error.2 ⟨hffff, rfl⟩, fun v => memWrite_error.2 ⟨hffff, rfl⟩⟩

theorem onOperand_of_operandFault {k : Kind} {m : Mode} {s : State} {f : Fault} (h : OperandFault k m s f)
    (g : Byte → State) : onOperand k m s g = .fault f := by
  rcases resolveAddr_of_operandFault h with h | ⟨a, ha, hr, -⟩
  · simp [onOperand, readOperand, h]
  · simp [onOperand, readOperand, ha, hr]

theorem storeOperand_of_operandFault {k : Kind} {m : Mode} {s : State} {f : Fault} (h : OperandFault k m s f)
    (v : Byte) : storeOperand k m s v = .fault f := by
  rcases resolveAddr_of_operandFault h with h | ⟨a, ha, -, hw⟩
  · simp [storeOperand, h]
  · simp [storeOperand, ha, hw]

theorem modifyOperand_of_operandFault {k : Kind} {m : Mode} {s : State} {f : Fault} (h : OperandFault k m s f)
    (g : Byte → Byte) (flags : Byte → Byte → Byte) : modifyOperand k m s g flags = .fault f := by
  rcases resolveAddr_of_operandFault h with h | ⟨a, ha, hr, -⟩
  · simp [modifyOperand, h]
  · simp [modifyOperand, ha, hr]

/-- The accumulator can always be reached. -/
theorem ne_accumulator_of_operandFault {k : Kind} {m : Mode} {s : State} {f : Fault} (h : OperandFault k m s f) :
    m ≠ .accumulator := by
  rintro rfl
  rcases h with h | ⟨a, ha, -⟩
  · cases h
  · cases ha

theorem exec_of_operandFault {i : Instr} {s : State} {f : Fault} (hk : i.kind ∈ resolverKinds)
    (h : OperandFault i.kind i.mode s f) : exec i s = .fault f := by
  cases i with
  | lda m | ldx m | ldy m | and m | eor m | cmp m | cpx m | cpy m | bit m => exact onOperand_of_operandFault h _
  | sta m => exact storeOperand_of_operandFault h _
  | inc m | dec m => exact modifyOperand_of_operandFault h _ _
  | asl m =>
    rw [exec, execAsl_memory (ne_accumulator_of_operandFault (m := m) h)]
    exact modifyOperand_of_operandFault h _ _
  | tax | tay | inx | iny | dex | dey => exact absurd hk (by decide)
  | bcc | bcs | beq | bne | bmi | bpl | bvc | bvs => exact absurd hk (by decide)
  | clc | cld | cli | clv | brk => exact absurd hk (by decide)
  | noneOp op => exact absurd hk (by decide : Kind.noneOp ∉ resolverKinds)

/-! ### The resolver's fault -/

theorem resolveWith_of_not_resolvable {m : Mode} (hm : m.resolvable = false) (w : ZpPtrWrap) (k : Kind) (s : State) :
    resolveWith w k m s = .error (.usageError m k) := by
  cases m
  case indirect | implied | relative | noneAddressing => rfl
  all_goals cases hm

/-- An executor that calls the resolver is given a mode the resolver rejects. -/
theorem exec_of_not_resolvable {i : Instr} {m : Mode} {k : Kind} (hm : m.resolvable = false) (s : State)
    (hmode : i.mode = m := by rfl) (hkind : i.kind = k := by rfl) (hk : k ∈ resolverKinds := by decide) :
    exec i s = .fault (.usageError m k) := by
  subst hmode hkind
  exact exec_of_operandFault hk (.inl (resolveWith_of_not_resolvable hm _ _ _))

theorem fromByte_of_missing {s : State} (hpc : s.pc = 0xFFFF#16) (f : Byte → Except Fault Addr) :
    fromByte s f = .error (.memoryBounds 0xFFFF#16 s.ia) := by
  simp [fromByte, hpc, memRead_error.2 ⟨rfl, rfl⟩]

theorem fromWord_of_missing {s : State} (hpc : s.pc = 0xFFFE#16 ∨ s.pc = 0xFFFF#16) (f : Addr → Addr) :
    fromWord s f = .error (.memoryBounds 0xFFFF#16 s.ia) := by
  simp [fromWord, memRead16_of_missing hpc]

/-- Every mode with one operand byte but Immediate reads it in the resolver. -/
theorem resolveWith_of_missing_byte {m : Mode} {s : State} (hpc : s.pc = 0xFFFF#16) (hm : m ∈ oneByteModes)
    (himm : m ≠ .immediate) (w : ZpPtrWrap) (k : Kind) :
    resolveWith w k m s = .error (.memoryBounds 0xFFFF#16 s.ia) := by
  cases m
  case zeroPage | zeroPageX | zeroPageY | indirectX | indirectY => simp only [resolveWith, fromByte_of_missing hpc]
  case immediate => exact absurd rfl himm
  all_goals exact absurd hm (by decide)

theorem resolveWith_of_missing_word {m : Mode} {s : State} (hpc : s.pc = 0xFFFE#16 ∨ s.pc = 0xFFFF#16)
    (hm : m ∈ twoByteModes) (w : ZpPtrWrap) (k : Kind) :
    resolveWith w k m s = .error (.memoryBounds 0xFFFF#16 s.ia) := by
  cases m
  case absolute | absoluteX | absoluteY => exact fromWord_of_missing hpc _
  all_goals exact absurd hm (by decide)

/-- With PC at 0xFFFF no mode reaches an operand byte: Immediate has an address there, and the others a resolver's fault. -/
theorem operandFault_at_ffff {m : Mode} {s : State} (hpc : s.pc = 0xFFFF#16) (hm : m ∈ oneByteModes ∨ m ∈ twoByteModes)
    (k : Kind) : OperandFault k m s (.memoryBounds 0xFFFF#16 s.ia) := by
  rcases hm with hm | hm
  · by_cases himm : m = .immediate
    · subst himm
      exact .inr ⟨0xFFFF#16, by rw [← hpc]; rfl, by decide, rfl⟩
    · exact .inl (resolveWith_of_missing_byte hpc hm himm _ k)
  · exact .inl (resolveWith_of_missing_word (.inr hpc) hm _ k)

/-! ### The statements -/

/-- Settles O45: each clause names a fault of the operand, which is the executor's. -/
theorem unreachableOperandFaults : Obligations.UnreachableOperandFaults := by
  refine fun i s hk => ⟨fun f hf => exec_of_operandFault hk (.inl hf),
    fun a ha hle => exec_of_operandFault hk (.inr ⟨a, ha, hle, rfl⟩), fun hpc hm => ?_, fun hpc hm => ?_⟩
  · have hia : s.ia = 0xFFFE#16 := by rw [State.ia, hpc]; rfl
    rw [← show s.ia = 0xFFFE from hia]
    refine ⟨fun w himm => ?_, exec_of_operandFault hk (operandFault_at_ffff hpc hm _)⟩
    rcases hm with hm | hm
    · exact resolveWith_of_missing_byte hpc hm himm w _
    · exact resolveWith_of_missing_word (.inr hpc) hm w _
  · have hia : s.ia = 0xFFFD#16 := by rw [State.ia, hpc]; rfl
    have hres := fun w => resolveWith_of_missing_word (.inl hpc) hm w i.kind
    rw [← show s.ia = 0xFFFD from hia]
    exact ⟨hres, exec_of_operandFault hk (.inl (hres _))⟩

/-- Settles O27: the resolver's usage error, and each executor's from it. -/
theorem unresolvableModesRaiseUsageError : Obligations.UnresolvableModesRaiseUsageError := by
  intro w k m s hm
  refine ⟨resolveWith_of_not_resolvable hm w k s, ?_, ?_, ?_, ?_, ?_, ?_, ?_, ?_, ?_, ?_, ?_, ?_, ?_⟩ <;>
    exact exec_of_not_resolvable hm s

end Sys2Proof.Proofs.OperandFaults
end

section
/-! The branches (44_branches.md R220 to R228): where each of the eight goes, from the one shape they share, and the offset
that the assembler writes (30_encoding.md R105). -/

namespace Sys2Proof.Proofs.Branches

open Sys2Proof.Machine Sys2Proof.Safety

/-! ### The shape the eight branches share -/

theorem branch_taken {s : State} (hpc : s.pc.toNat < Config.memSize) :
    branch true s = .next { s with pc := s.pc + 1 + sext16 (s.mem.read s.pc.toNat) } :=
  branch_next.2 (.inl ⟨rfl, hpc, rfl⟩)

theorem branch_untaken (s : State) : branch false s = .next { s with pc := s.pc + 1 } :=
  branch_next.2 (.inr ⟨rfl, rfl⟩)

theorem branch_taken_missing {s : State} (hpc : s.pc = 0xFFFF) :
    branch true s = .fault (.memoryBounds 0xFFFF 0xFFFE) := by
  refine branch_fault.2 ⟨rfl, hpc, ?_⟩
  rw [State.ia, hpc]
  rfl

theorem branch_of_eq {b c : Bool} {s : State} {o : Host.Outcome State Fault Refusal} (h : branch c s = o) (hb : b = c) :
    branch b s = o := hb ▸ h

theorem branch_not_of_eq {b c : Bool} {s : State} {o : Host.Outcome State Fault Refusal} (h : branch c s = o)
    (hb : b = !c) : branch (!b) s = o := by
  rw [hb, Bool.not_not, h]

/-- What the shared shape answers under a value of its condition, each branch answers under the flag value that gives it. -/
theorem each_branch {c : Bool} {s : State} {o : Host.Outcome State Fault Refusal} (h : branch c s = o) :
    (s.flag .c = !c → exec .bcc s = o) ∧ (s.flag .c = c → exec .bcs s = o) ∧
    (s.flag .z = c → exec .beq s = o) ∧ (s.flag .z = !c → exec .bne s = o) ∧
    (s.flag .n = c → exec .bmi s = o) ∧ (s.flag .n = !c → exec .bpl s = o) ∧
    (s.flag .v = !c → exec .bvc s = o) ∧ (s.flag .v = c → exec .bvs s = o) :=
  ⟨branch_not_of_eq h, branch_of_eq h, branch_of_eq h, branch_not_of_eq h,
    branch_of_eq h, branch_not_of_eq h, branch_not_of_eq h, branch_of_eq h⟩

/-! ### The assembler's offset -/

/-- A displacement is the sign extension of its low byte exactly when it lies in -128 to 127. -/
theorem sext16_setWidth_eq_iff (d : Addr) : sext16 (d.setWidth 8) = d ↔ (d + 128).toNat ≤ 255 := by
  have hd : d.toNat < 65536 := d.isLt
  have hsext : (sext16 (d.setWidth 8)).toNat = d.toNat % 256 + if 128 ≤ d.toNat % 256 then 65280 else 0 := by
    rw [sext16, BitVec.toNat_signExtend, BitVec.msb_eq_decide]
    simp only [BitVec.toNat_setWidth, decide_eq_true_eq, Nat.reducePow, Nat.reduceSub]
    omega
  have hadd : (d + 128).toNat = (d.toNat + 128) % 65536 := BitVec.toNat_add ..
  rw [BitVec.toNat_eq, hsext, hadd]
  split <;> omega

theorem branchOffset_eq_some {ia target : Addr} {off : Byte} (h : branchOffset ia target = some off) :
    sext16 off = target - (ia + 2#16) := by
  obtain ⟨hd, hoff⟩ := Option.ite_none_right_eq_some.1 h
  cases hoff
  exact hd

theorem branchTarget_branchOffset {ia target : Addr} {off : Byte} (h : branchOffset ia target = some off) :
    branchTarget ia off = target := by
  rw [branchTarget, branchOffset_eq_some h, add_sub_cancel]

theorem isSome_branchOffset (ia target : Addr) :
    (branchOffset ia target).isSome = true ↔ (target - ia + 126).toNat ≤ 255 := by
  have hd : target - (ia + 2#16) + 128 = target - ia + 126 := by bv_omega
  rw [← hd, ← sext16_setWidth_eq_iff, branchOffset]
  simp

/-! ### The statements -/

/-- Settles O40: the offset byte is read and its sign extension added; `sext16` is the signed number modulo 2^16. -/
theorem takenBranchGoesToItsTarget : Obligations.TakenBranchGoesToItsTarget :=
  fun _ hpc => each_branch (branch_taken hpc)

/-- Settles O41: the offset byte is passed and not read. -/
theorem untakenBranchPassesItsOffset : Obligations.UntakenBranchPassesItsOffset :=
  fun s => each_branch (branch_untaken s)

/-- Settles O46: the offset byte is read where there is none. -/
theorem takenBranchWithoutOffsetByteFaults : Obligations.TakenBranchWithoutOffsetByteFaults :=
  fun _ hpc => each_branch (branch_taken_missing hpc)

/-- Settles O60: the offset is the displacement's low byte, which sign extension gives back inside the range; PC during the
branch is the branch's address plus 1. -/
theorem assembledBranchReachesItsTarget : Obligations.AssembledBranchReachesItsTarget := by
  refine fun ia target => ⟨fun off hoff => ⟨branchTarget_branchOffset hoff, fun s hs hpc hread => ?_⟩,
    isSome_branchOffset ia target⟩
  have htarget : s.pc + 1 + sext16 (s.mem.read s.pc.toNat) = target := by
    rw [hread, hs, add_assoc ia]
    exact branchTarget_branchOffset hoff
  exact each_branch ((branch_taken hpc).trans (by rw [htarget]))

end Sys2Proof.Proofs.Branches
end

section
/-! What each flag computation writes (10_state.md R27, R28, 41_logical_shift.md R162, 43_compare_bit.md R204), in the terms
the statements are made in. -/

namespace Sys2Proof.Proofs.FlagEffects

open Sys2Proof.Machine Sys2Proof.Safety

theorem oneFlagOf_putFlag (f : Flag) (on : Bool) (p : Byte) : OneFlagOf f on p (putFlag f on p) :=
  ⟨getFlag_putFlag_same f on p, fun _ hg => getFlag_putFlag_other hg on p⟩

/-! ### BIT -/

theorem getFlag_bitFlags_other {f : Flag} (hz : f ≠ .z) (hn : f ≠ .n) (hv : f ≠ .v) (a v p : Byte) :
    getFlag f (bitFlags a v p) = getFlag f p := by
  rw [bitFlags, getFlag_putFlag_other hv, getFlag_putFlag_other hn, getFlag_putFlag_other hz]

/-- BIT writes Z, then N, then V: a later write keeps what an earlier one wrote. -/
theorem bitOf_bitFlags (a v p : Byte) : BitOf a v p (bitFlags a v p) := by
  refine ⟨?_, ?_, getFlag_putFlag_same .v _ _, fun _ hz hn hv => getFlag_bitFlags_other hz hn hv a v p⟩
  · rw [bitFlags, getFlag_putFlag_other (by decide), getFlag_putFlag_other (by decide), getFlag_putFlag_same]
  · rw [bitFlags, getFlag_putFlag_other (by decide), getFlag_putFlag_same]

/-! ### ASL -/

theorem toNat_shiftLeft (v : Byte) : (shiftLeft v).toNat = 2 * v.toNat % 256 := by
  rw [shiftLeft, BitVec.toNat_shiftLeft, Nat.shiftLeft_eq, Nat.pow_one, Nat.mul_comm]

theorem getFlag_aslFlags_other {f : Flag} (hc : f ≠ .c) (hz : f ≠ .z) (hn : f ≠ .n) (v p : Byte) :
    getFlag f (aslFlags v p) = getFlag f p := by
  rw [aslFlags, getFlag_setZN_other hz hn, getFlag_putFlag_other hc]

/-- Bit 7 of the result is bit 6 of the original value. -/
theorem aslOf_aslFlags (v p : Byte) : AslOf v p (aslFlags v p) := by
  refine ⟨?_, ?_, ?_, fun _ hc hz hn => getFlag_aslFlags_other hc hz hn v p⟩
  · rw [aslFlags, getFlag_setZN_other (by decide) (by decide), getFlag_putFlag_same]
  · rw [aslFlags, getFlag_z_setZN, beq_eq_decide, decide_eq_decide, ← toNat_shiftLeft, BitVec.toNat_eq]
    rfl
  · rw [aslFlags, getFlag_n_setZN, shiftLeft, BitVec.getLsbD_shiftLeft]
    rfl

/-- Settles O30: by the laws of reading a flag after a write, and by the eight bits of P. -/
theorem flagsAreIndependent : Obligations.FlagsAreIndependent := by
  refine ⟨fun f g on p => ?_, fun _ _ => flags_ext⟩
  split
  · next hg => rw [hg, getFlag_putFlag_same]
  · next hg => exact getFlag_putFlag_other hg on p

end Sys2Proof.Proofs.FlagEffects
end

section
/-! What each instruction answers where its operand can be reached (40 to 45 of the spec): the shared shapes completed once,
and each instruction's own result and flags from them. -/

namespace Sys2Proof.Proofs.Completion

open Sys2Proof.Machine Sys2Proof.Safety Sys2Proof.Proofs.ZeroNegative Sys2Proof.Proofs.FlagEffects
open Sys2Proof.Proofs.MemoryAccess (Memory.read_write_other)

/-! ### The shapes of executors -/

theorem onOperand_of_hasOperand {k : Kind} {m : Mode} {s : State} {a : Addr} (h : HasOperand k m s a)
    (f : Byte → State) : onOperand k m s f = .next ((f (s.mem.read a.toNat)).advance m) := by
  obtain ⟨hr, hb⟩ := h
  exact onOperand_next.2 ⟨_, readOperand_ok.2 ⟨a, hr, hb, rfl⟩, rfl⟩

theorem storeOperand_of_hasOperand {k : Kind} {m : Mode} {s : State} {a : Addr} (h : HasOperand k m s a) (v : Byte) :
    storeOperand k m s v = .next ((s.setMem (s.mem.write a.toNat v)).advance m) := by
  obtain ⟨hr, hb⟩ := h
  exact storeOperand_next.2 ⟨a, hr, hb, rfl⟩

theorem modifyOperand_of_hasOperand {k : Kind} {m : Mode} {s : State} {a : Addr} (h : HasOperand k m s a)
    (f : Byte → Byte) (g : Byte → Byte → Byte) : modifyOperand k m s f g =
      .next (((s.setMem (s.mem.write a.toNat (f (s.mem.read a.toNat)))).setP (g (s.mem.read a.toNat) s.p)).advance m) := by
  obtain ⟨hr, hb⟩ := h
  exact modifyOperand_next.2 ⟨a, hr, hb, rfl⟩

/-- ASL with a memory operand is the read-modify-write: an operand with an address is not the accumulator. -/
theorem execAsl_of_hasOperand {m : Mode} {s : State} {a : Addr} (h : HasOperand .asl m s a) :
    execAsl m s = modifyOperand .asl m s shiftLeft aslFlags := by
  obtain ⟨hr, -⟩ := h
  refine execAsl_memory ?_ s
  rintro rfl
  cases hr

/-! ### Loads, stores and transfers -/

/-- Settles O31: `setZN` of the operand. -/
theorem loadsReadTheOperand : Obligations.LoadsReadTheOperand :=
  fun _ _ _ => ⟨fun h => ⟨_, znOf_setZN _ _, onOperand_of_hasOperand h _⟩,
    fun h => ⟨_, znOf_setZN _ _, onOperand_of_hasOperand h _⟩, fun h => ⟨_, znOf_setZN _ _, onOperand_of_hasOperand h _⟩⟩

/-- Settles O32: the write's memory, read by the laws of M. -/
theorem storeWritesTheAccumulator : Obligations.StoreWritesTheAccumulator :=
  fun _ _ _ hw h => ⟨_, storeOperand_of_hasOperand h _, Memory.read_write_same _ _ _ hw,
    fun _ hk => Memory.read_write_other hw hk _⟩

/-- Settles O33: `setZN` of A, for both. -/
theorem transfersCopyTheAccumulator : Obligations.TransfersCopyTheAccumulator :=
  fun _ => ⟨_, znOf_setZN _ _, onImplied_eq _, onImplied_eq _⟩

/-! ### Logical and shift -/

/-- Settles O34: `setZN` of the result. -/
theorem logicalCombinesWithTheAccumulator : Obligations.LogicalCombinesWithTheAccumulator :=
  fun _ _ _ => ⟨fun h => ⟨_, znOf_setZN _ _, onOperand_of_hasOperand h _⟩,
    fun h => ⟨_, znOf_setZN _ _, onOperand_of_hasOperand h _⟩⟩

/-- Settles O35: the accumulator form and the memory forms write the same flags of the original value. -/
theorem shiftLeftDoublesTheOperand : Obligations.ShiftLeftDoublesTheOperand := by
  refine ⟨fun s => ⟨_, _, toNat_shiftLeft s.a, aslOf_aslFlags s.a s.p, execAsl_acc s⟩, fun m s a hw h => ?_⟩
  refine ⟨_, _, aslOf_aslFlags _ _, (execAsl_of_hasOperand h).trans (modifyOperand_of_hasOperand h _ _), ?_,
    fun _ hk => Memory.read_write_other hw hk _⟩
  exact (congrArg BitVec.toNat (Memory.read_write_same _ _ _ hw)).trans (toNat_shiftLeft _)

/-! ### Increment and decrement -/

theorem toNat_increment (v : Byte) : (v + 1#8).toNat = (v.toNat + 1) % 256 := BitVec.toNat_add v 1#8

theorem toNat_decrement (v : Byte) : (v - 1#8).toNat = (v.toNat + 255) % 256 := by bv_omega

/-- Settles O36: `setZN` of the register's new value. -/
theorem registerIncrementsAndDecrementsWrap : Obligations.RegisterIncrementsAndDecrementsWrap :=
  fun _ => ⟨⟨_, _, toNat_increment _, znOf_setZN _ _, onImplied_eq _⟩, ⟨_, _, toNat_increment _, znOf_setZN _ _, onImplied_eq _⟩,
    ⟨_, _, toNat_decrement _, znOf_setZN _ _, onImplied_eq _⟩, ⟨_, _, toNat_decrement _, znOf_setZN _ _, onImplied_eq _⟩⟩

/-- A read-modify-write whose flags are Z and N of the byte written. -/
theorem modifyOperand_zn {k : Kind} {m : Mode} {s : State} {a : Addr} (hw : s.mem.wf = true) (h : HasOperand k m s a)
    (f : Byte → Byte) : ∃ mem q, ZNOf (mem.read a.toNat) s.p q ∧
      modifyOperand k m s f (fun v p => setZN (f v) p) = .next { s with mem := mem, p := q, pc := pcAfter m s } ∧
      mem.read a.toNat = f (s.mem.read a.toNat) ∧ ∀ k, k ≠ a.toNat → mem.read k = s.mem.read k := by
  have hread := Memory.read_write_same s.mem a.toNat (f (s.mem.read a.toNat)) hw
  refine ⟨_, setZN (f (s.mem.read a.toNat)) s.p, ?_, modifyOperand_of_hasOperand h _ _, hread,
    fun _ hk => Memory.read_write_other hw hk _⟩
  simp only [State.setP_mem, State.setMem_mem]
  rw [hread]
  exact znOf_setZN _ _

/-- Settles O37: the byte written is the byte read plus or minus 1. -/
theorem memoryIncrementsAndDecrementsWrap : Obligations.MemoryIncrementsAndDecrementsWrap := by
  refine fun m s a hw => ⟨fun h => ?_, fun h => ?_⟩
  · obtain ⟨mem, q, hq, he, hread, hother⟩ := modifyOperand_zn hw h (· + 1#8)
    exact ⟨mem, q, hq, he, by rw [hread, toNat_increment], hother⟩
  · obtain ⟨mem, q, hq, he, hread, hother⟩ := modifyOperand_zn hw h (· - 1#8)
    exact ⟨mem, q, hq, he, by rw [hread, toNat_decrement], hother⟩

/-! ### Compare and bit test -/

/-- Settles O38: the flags of the compare function. -/
theorem comparesWriteFlagsOnly : Obligations.ComparesWriteFlagsOnly :=
  fun _ _ _ => ⟨fun h => ⟨_, Compare.compareOf_compareFlags _ _ _, onOperand_of_hasOperand h _⟩,
    fun h => ⟨_, Compare.compareOf_compareFlags _ _ _, onOperand_of_hasOperand h _⟩,
    fun h => ⟨_, Compare.compareOf_compareFlags _ _ _, onOperand_of_hasOperand h _⟩⟩

/-- Settles O39: the flags of BIT. -/
theorem bitTestWritesFlagsOnly : Obligations.BitTestWritesFlagsOnly :=
  fun _ _ _ h => ⟨_, bitOf_bitFlags _ _ _, onOperand_of_hasOperand h _⟩

/-! ### Flag clears, BRK and NONE -/

/-- Settles O42: one flag written. -/
theorem flagClearsClearOneFlag : Obligations.FlagClearsClearOneFlag :=
  fun _ => ⟨⟨_, oneFlagOf_putFlag _ _ _, onImplied_eq _⟩, ⟨_, oneFlagOf_putFlag _ _ _, onImplied_eq _⟩,
    ⟨_, oneFlagOf_putFlag _ _ _, onImplied_eq _⟩, ⟨_, oneFlagOf_putFlag _ _ _, onImplied_eq _⟩⟩

theorem exec_brk (s : State) : exec .brk s = .next { s with p := putFlag .b true s.p, rs := .halted } := rfl

/-- Settles O43: B written and RS set, PC standing where the fetch left it. -/
theorem brkHaltsWithBreakSet : Obligations.BrkHaltsWithBreakSet :=
  fun s => ⟨_, oneFlagOf_putFlag _ _ _, exec_brk s⟩

/-- An instruction of one byte needs no advance. -/
theorem advance_noneAddressing (s : State) : s.advance .noneAddressing = s := by
  simp [State.advance, Mode.length, State.setPC]

theorem exec_noneOp (op : Byte) (s : State) : exec (.noneOp op) s = .next s :=
  congrArg Host.Outcome.next (advance_noneAddressing s)

/-- Settles O44: the two policies, and the NONE codes by the decoder's law. -/
theorem unlistedOpcodeIsOneByteNop : Obligations.UnlistedOpcodeIsOneByteNop := by
  refine fun op s => ⟨exec_noneOp op s, exec_noneOp op s, rfl, fun hop => ?_⟩
  have hdec := decode_noneCodes op hop
  exact ⟨hdec, by rw [hdec]; rfl⟩

/-! ### A store and the fetch after it -/

/-- Settles O18: the fetch reads the memory that STA's write left. -/
theorem storedByteIsFetchedNext : Obligations.StoredByteIsFetchedNext := by
  intro m s t a hw h hexec hpc
  cases (storeOperand_of_hasOperand h s.a).symm.trans hexec
  obtain ⟨-, hb⟩ := h
  exact fetchOpcode_ok.2 ⟨by rw [hpc]; exact hb, by rw [hpc]; exact Memory.read_write_same _ _ _ hw⟩

end Sys2Proof.Proofs.Completion
end

section
/-! Who writes what (10_state.md R21 to R29, 20_memory.md R69): an executor that answers a next state has changed a register, a
flag or a byte only where its operation is one of the writers, and the frames of the instructions from it. -/

namespace Sys2Proof.Proofs.Frames

open Sys2Proof.Machine Sys2Proof.Safety Sys2Proof.Proofs.FlagEffects
open Sys2Proof.Proofs.MemoryAccess (Memory.read_write_other)

/-! ### The writers, as lists -/

/-- The eight flags, for checks over all of them. -/
def allFlags : List Flag := [.c, .z, .i, .d, .b, .u, .v, .n]

theorem mem_allFlags (f : Flag) : f ∈ allFlags := by cases f <;> decide

/-- The writers of A other than ASL, which writes it in one mode (R21). -/
def aWriters : List Kind := [.lda, .and, .eor]

/-- The writers of X (R22). -/
def xWriters : List Kind := [.ldx, .tax, .inx, .dex]

/-- The writers of Y (R23). -/
def yWriters : List Kind := [.ldy, .tay, .iny, .dey]

/-- The writers of M (R69); ASL writes it in the memory modes. -/
def memWriters : List Kind := [.sta, .inc, .dec, .asl]

theorem ne_of_not_writer {k : Kind} {f g : Flag} (hf : k ∉ flagWriters f) (hg : k ∈ flagWriters g) : f ≠ g := by
  rintro rfl
  exact hf hg

/-! ### What an executor changes -/

/-- An executor leaves a flag it is not a writer of. -/
theorem exec_keeps_flag {i : Instr} {s t : State} {f : Flag} (h : exec i s = .next t) (hf : i.kind ∉ flagWriters f) :
    t.flag f = s.flag f := by
  have hne : ∀ g, i.kind ∈ flagWriters g → f ≠ g := fun _ => ne_of_not_writer hf
  cases i <;> dsimp only [Instr.kind] at hne
  case lda | ldx | ldy | and | eor =>
    obtain ⟨v, -, rfl⟩ := onOperand_next.1 h
    exact getFlag_setZN_other (hne .z (by decide)) (hne .n (by decide)) _ _
  case cmp | cpx | cpy =>
    obtain ⟨v, -, rfl⟩ := onOperand_next.1 h
    exact Compare.getFlag_compareFlags_other (hne .c (by decide)) (hne .z (by decide)) (hne .n (by decide)) _ _ _
  case bit =>
    obtain ⟨v, -, rfl⟩ := onOperand_next.1 h
    exact getFlag_bitFlags_other (hne .z (by decide)) (hne .n (by decide)) (hne .v (by decide)) _ _ _
  case sta =>
    obtain ⟨a, -, -, rfl⟩ := storeOperand_next.1 h
    rfl
  case inc | dec =>
    obtain ⟨a, -, -, rfl⟩ := modifyOperand_next.1 h
    exact getFlag_setZN_other (hne .z (by decide)) (hne .n (by decide)) _ _
  case asl m =>
    have hkeep := getFlag_aslFlags_other (hne .c (by decide)) (hne .z (by decide)) (hne .n (by decide))
    by_cases hm : m = .accumulator
    · subst hm
      rw [exec, execAsl_acc] at h
      cases h
      exact hkeep _ _
    · rw [exec, execAsl_memory hm] at h
      obtain ⟨a, -, -, rfl⟩ := modifyOperand_next.1 h
      exact hkeep _ _
  case tax | tay | inx | iny | dex | dey =>
    cases h
    exact getFlag_setZN_other (hne .z (by decide)) (hne .n (by decide)) _ _
  case bcc | bcs | beq | bne | bmi | bpl | bvc | bvs =>
    rcases branch_next.1 h with ⟨-, -, rfl⟩ | ⟨-, rfl⟩ <;> rfl
  case clc =>
    cases h
    exact getFlag_putFlag_other (hne .c (by decide)) _ _
  case cld =>
    cases h
    exact getFlag_putFlag_other (hne .d (by decide)) _ _
  case cli =>
    cases h
    exact getFlag_putFlag_other (hne .i (by decide)) _ _
  case clv =>
    cases h
    exact getFlag_putFlag_other (hne .v (by decide)) _ _
  case brk =>
    cases h
    exact getFlag_putFlag_other (hne .b (by decide)) _ _
  case noneOp =>
    cases h
    rfl

/-- An executor leaves each of A, X and Y unless its operation is a writer of it. -/
theorem exec_registers {i : Instr} {s t : State} (h : exec i s = .next t) :
    (t.a = s.a ∨ i.kind ∈ aWriters ∨ i = .asl .accumulator) ∧ (t.x = s.x ∨ i.kind ∈ xWriters) ∧
      (t.y = s.y ∨ i.kind ∈ yWriters) := by
  cases i <;> dsimp only [Instr.kind]
  case lda | and | eor =>
    obtain ⟨v, -, rfl⟩ := onOperand_next.1 h
    exact ⟨.inr (.inl (by decide)), .inl rfl, .inl rfl⟩
  case ldx =>
    obtain ⟨v, -, rfl⟩ := onOperand_next.1 h
    exact ⟨.inl rfl, .inr (by decide), .inl rfl⟩
  case ldy =>
    obtain ⟨v, -, rfl⟩ := onOperand_next.1 h
    exact ⟨.inl rfl, .inl rfl, .inr (by decide)⟩
  case cmp | cpx | cpy | bit =>
    obtain ⟨v, -, rfl⟩ := onOperand_next.1 h
    exact ⟨.inl rfl, .inl rfl, .inl rfl⟩
  case sta =>
    obtain ⟨a, -, -, rfl⟩ := storeOperand_next.1 h
    exact ⟨.inl rfl, .inl rfl, .inl rfl⟩
  case inc | dec =>
    obtain ⟨a, -, -, rfl⟩ := modifyOperand_next.1 h
    exact ⟨.inl rfl, .inl rfl, .inl rfl⟩
  case asl m =>
    by_cases hm : m = .accumulator
    · subst hm
      rw [exec, execAsl_acc] at h
      cases h
      exact ⟨.inr (.inr rfl), .inl rfl, .inl rfl⟩
    · rw [exec, execAsl_memory hm] at h
      obtain ⟨a, -, -, rfl⟩ := modifyOperand_next.1 h
      exact ⟨.inl rfl, .inl rfl, .inl rfl⟩
  case tax | inx | dex =>
    cases h
    exact ⟨.inl rfl, .inr (by decide), .inl rfl⟩
  case tay | iny | dey =>
    cases h
    exact ⟨.inl rfl, .inl rfl, .inr (by decide)⟩
  case bcc | bcs | beq | bne | bmi | bpl | bvc | bvs =>
    rcases branch_next.1 h with ⟨-, -, rfl⟩ | ⟨-, rfl⟩ <;> exact ⟨.inl rfl, .inl rfl, .inl rfl⟩
  case clc | cld | cli | clv | brk | noneOp =>
    cases h
    exact ⟨.inl rfl, .inl rfl, .inl rfl⟩

/-! ### The parts of a frame

Each asks that no operation of a list is a writer; the instruction is one of the list. -/

section
variable {i : Instr} {s t : State} (h : exec i s = .next t)
include h

theorem exec_keeps_a {ks : List Kind} (hi : i.kind ∈ ks) (hks : ∀ k ∈ ks, k ∉ .asl :: aWriters) : t.a = s.a := by
  obtain ⟨hkeep | hw | rfl, -, -⟩ := exec_registers h
  · exact hkeep
  · exact absurd (List.mem_cons_of_mem _ hw) (hks _ hi)
  · exact absurd List.mem_cons_self (hks _ hi)

theorem exec_keeps_x {ks : List Kind} (hi : i.kind ∈ ks) (hks : ∀ k ∈ ks, k ∉ xWriters) : t.x = s.x := by
  obtain ⟨-, hx, -⟩ := exec_registers h
  exact hx.resolve_right (hks _ hi)

theorem exec_keeps_y {ks : List Kind} (hi : i.kind ∈ ks) (hks : ∀ k ∈ ks, k ∉ yWriters) : t.y = s.y := by
  obtain ⟨-, -, hy⟩ := exec_registers h
  exact hy.resolve_right (hks _ hi)

theorem exec_sameRegs {ks : List Kind} (hi : i.kind ∈ ks)
    (hks : ∀ k ∈ ks, k ∉ .asl :: aWriters ∧ k ∉ xWriters ∧ k ∉ yWriters) : SameRegs s t :=
  ⟨exec_keeps_a h hi fun k hk => (hks k hk).1, exec_keeps_x h hi fun k hk => (hks k hk).2.1,
    exec_keeps_y h hi fun k hk => (hks k hk).2.2⟩

theorem exec_sameFlagsBut {ks : List Kind} {fs : List Flag} (hi : i.kind ∈ ks)
    (hks : ∀ k ∈ ks, ∀ f ∈ allFlags, f ∉ fs → k ∉ flagWriters f) : SameFlagsBut fs s t :=
  fun f hf => exec_keeps_flag h (hks _ hi f (mem_allFlags f) hf)

theorem exec_sameMemory {ks : List Kind} (hi : i.kind ∈ ks) (hks : ∀ k ∈ ks, k ∉ memWriters) : SameMemory s t := by
  rcases exec_memory h with he | ⟨a, -, -, -, hk⟩
  · exact fun k => by rw [he]
  · exact absurd (by simpa [memWriters] using hk) (hks _ hi)

theorem exec_sameMemoryBut {a : Addr} (hw : s.mem.wf = true) (ha : resolve i.kind i.mode s = .ok (.addr a)) :
    SameMemoryBut a s t := by
  intro k hk
  rcases exec_memory h with he | ⟨b, -, ⟨v, he⟩, hb, -⟩
  · rw [he]
  · rw [ha] at hb
    cases hb
    rw [he, Memory.read_write_other hw hk]

theorem exec_sameRun {ks : List Kind} (hi : i.kind ∈ ks) (hks : .brk ∉ ks) : SameRun s t := by
  obtain ⟨hsteps, hfault, hrs | ⟨rfl, -⟩⟩ := exec_run_state h
  · exact ⟨hrs, hsteps, hfault⟩
  · exact absurd hi hks

/-- The frame of an operation that writes neither memory nor the run state. -/
theorem exec_quiet {ks : List Kind} {fs : List Flag} (hi : i.kind ∈ ks)
    (hks : ∀ k ∈ ks, (∀ f ∈ allFlags, f ∉ fs → k ∉ flagWriters f) ∧ k ∉ .brk :: memWriters) :
    SameFlagsBut fs s t ∧ SameMemory s t ∧ SameRun s t :=
  ⟨exec_sameFlagsBut h hi fun k hk => (hks k hk).1,
    exec_sameMemory h hi fun k hk hm => (hks k hk).2 (List.mem_cons_of_mem _ hm),
    exec_sameRun h hi fun hk => (hks _ hk).2 List.mem_cons_self⟩

/-! ### The frames of groups of operations -/

theorem exec_frame_of_mem_aWriters (hi : i.kind ∈ aWriters) :
    t.x = s.x ∧ t.y = s.y ∧ SameFlagsBut [.z, .n] s t ∧ SameMemory s t ∧ SameRun s t :=
  ⟨exec_keeps_x h hi (by decide), exec_keeps_y h hi (by decide), exec_quiet h hi (by decide)⟩

theorem exec_frame_of_mem_xWriters (hi : i.kind ∈ xWriters) :
    t.a = s.a ∧ t.y = s.y ∧ SameFlagsBut [.z, .n] s t ∧ SameMemory s t ∧ SameRun s t :=
  ⟨exec_keeps_a h hi (by decide), exec_keeps_y h hi (by decide), exec_quiet h hi (by decide)⟩

theorem exec_frame_of_mem_yWriters (hi : i.kind ∈ yWriters) :
    t.a = s.a ∧ t.x = s.x ∧ SameFlagsBut [.z, .n] s t ∧ SameMemory s t ∧ SameRun s t :=
  ⟨exec_keeps_a h hi (by decide), exec_keeps_x h hi (by decide), exec_quiet h hi (by decide)⟩

/-- The frame of an operation that writes no register, no memory and no run state. -/
theorem exec_quiet_sameRegs {ks : List Kind} {fs : List Flag} (hi : i.kind ∈ ks)
    (hregs : ∀ k ∈ ks, k ∉ .asl :: aWriters ∧ k ∉ xWriters ∧ k ∉ yWriters)
    (hks : ∀ k ∈ ks, (∀ f ∈ allFlags, f ∉ fs → k ∉ flagWriters f) ∧ k ∉ .brk :: memWriters) :
    SameRegs s t ∧ SameFlagsBut fs s t ∧ SameMemory s t ∧ SameRun s t :=
  ⟨exec_sameRegs h hi hregs, exec_quiet h hi hks⟩

/-- INC and DEC. -/
theorem exec_frame_of_incDec (hi : i.kind ∈ [Kind.inc, .dec]) (hw : s.mem.wf = true) :
    SameRegs s t ∧ SameFlagsBut [.z, .n] s t ∧ SameRun s t ∧
      ∀ a, resolve i.kind i.mode s = .ok (.addr a) → SameMemoryBut a s t :=
  ⟨exec_sameRegs h hi (by decide), exec_sameFlagsBut h hi (by decide), exec_sameRun h hi (by decide),
    fun _ => exec_sameMemoryBut h hw⟩

/-- An operation that no flag has for a writer keeps P as a byte. -/
theorem exec_keeps_p {ks : List Kind} (hi : i.kind ∈ ks) (hks : ∀ k ∈ ks, ∀ f ∈ allFlags, k ∉ flagWriters f) : t.p = s.p :=
  flags_ext fun f => exec_keeps_flag h (hks _ hi f (mem_allFlags f))

end

/-! ### The statements -/

/-- Settles O47: A, X and Y each have their own writers, which write Z and N besides. -/
theorem loadAndLogicalFrame : Obligations.LoadAndLogicalFrame := by
  refine fun m s t => ⟨fun h => ?_, fun h => ?_, fun h => ?_⟩
  · rcases h with h | h | h <;> exact exec_frame_of_mem_aWriters h (by simp [Instr.kind, aWriters])
  · exact exec_frame_of_mem_xWriters h (by simp [Instr.kind, xWriters])
  · exact exec_frame_of_mem_yWriters h (by simp [Instr.kind, yWriters])

/-- Settles O48: the other writers of X and Y. -/
theorem indexRegisterFrame : Obligations.IndexRegisterFrame := by
  refine fun s t => ⟨fun h => ?_, fun h => ?_⟩
  · rcases h with h | h | h <;> exact exec_frame_of_mem_xWriters h (by decide)
  · rcases h with h | h | h <;> exact exec_frame_of_mem_yWriters h (by decide)

/-- Settles O49: STA is the writer of nothing but memory. -/
theorem storeFrame : Obligations.StoreFrame := by
  intro m s t hw h
  have hi : (Instr.sta m).kind ∈ [Kind.sta] := List.mem_cons_self
  exact ⟨exec_sameRegs h hi (by decide), exec_sameFlagsBut h hi (by decide), exec_sameRun h hi (by decide),
    fun _ => exec_sameMemoryBut h hw⟩

/-- ASL writes memory where the resolver answers an address, and A where it answers the accumulator. -/
theorem exec_asl_operand {m : Mode} {s t : State} (hw : s.mem.wf = true) (h : exec (.asl m) s = .next t) :
    (resolve .asl m s = .ok .acc → SameMemory s t) ∧
      ∀ a, resolve .asl m s = .ok (.addr a) → t.a = s.a ∧ SameMemoryBut a s t := by
  refine ⟨fun hacc => ?_, fun a ha => ⟨?_, exec_sameMemoryBut h hw ha⟩⟩
  · rcases exec_memory h with he | ⟨a, -, -, ha, -⟩
    · exact fun k => by rw [he]
    · cases hacc.symm.trans ha
  · obtain ⟨hkeep | hk | hm, -, -⟩ := exec_registers h
    · exact hkeep
    · exact absurd hk (by simp [Instr.kind, aWriters])
    · cases hm
      cases ha

/-- Settles O50: ASL by its operand, INC and DEC by the frame they share. -/
theorem readModifyWriteFrame : Obligations.ReadModifyWriteFrame := by
  refine fun m s t hw => ⟨fun h => ?_, fun h => ?_, fun h => ?_⟩
  · have hi : (Instr.asl m).kind ∈ [Kind.asl] := List.mem_cons_self
    exact ⟨exec_keeps_x h hi (by decide), exec_keeps_y h hi (by decide), exec_sameFlagsBut h hi (by decide),
      exec_sameRun h hi (by decide), exec_asl_operand hw h⟩
  · exact exec_frame_of_incDec h (by simp [Instr.kind]) hw
  · exact exec_frame_of_incDec h (by simp [Instr.kind]) hw

/-- Settles O51: the compares and BIT write flags alone. -/
theorem compareAndBitFrame : Obligations.CompareAndBitFrame := by
  refine fun m s t => ⟨fun h => ?_, fun h => ?_⟩
  · rcases h with h | h | h <;>
      exact exec_quiet_sameRegs (ks := [.cmp, .cpx, .cpy]) h (by simp [Instr.kind]) (by decide) (by decide)
  · exact exec_quiet_sameRegs (ks := [.bit]) h List.mem_cons_self (by decide) (by decide)

/-- Branches and NONE write no register, no flag and no memory. -/
theorem exec_frame_of_control {i : Instr} {s t : State} (h : exec i s = .next t)
    (hi : i.kind ∈ [Kind.bcc, .bcs, .beq, .bne, .bmi, .bpl, .bvc, .bvs, .noneOp]) :
    SameRegs s t ∧ t.p = s.p ∧ SameMemory s t ∧ SameRun s t :=
  ⟨exec_sameRegs h hi (by decide), exec_keeps_p h hi (by decide), exec_sameMemory h hi (by decide),
    exec_sameRun h hi (by decide)⟩

/-- Settles O52: a branch and NONE write nothing but PC, a flag clear its flag, and BRK B and the run state. -/
theorem controlAndFlagFrame : Obligations.ControlAndFlagFrame := by
  refine fun s t => ⟨fun i hi h => ?_, fun h => ?_, fun h => ?_, fun h => ?_, fun h => ?_, fun op h => ?_, fun h => ?_⟩
  · have hkinds : ∀ i ∈ [Instr.bcc, .bcs, .beq, .bne, .bmi, .bpl, .bvc, .bvs],
        i.kind ∈ [Kind.bcc, .bcs, .beq, .bne, .bmi, .bpl, .bvc, .bvs, .noneOp] := by decide
    exact exec_frame_of_control h (hkinds i hi)
  · exact exec_quiet_sameRegs (ks := [.clc]) h List.mem_cons_self (by decide) (by decide)
  · exact exec_quiet_sameRegs (ks := [.cld]) h List.mem_cons_self (by decide) (by decide)
  · exact exec_quiet_sameRegs (ks := [.cli]) h List.mem_cons_self (by decide) (by decide)
  · exact exec_quiet_sameRegs (ks := [.clv]) h List.mem_cons_self (by decide) (by decide)
  · exact exec_frame_of_control h (by simp [Instr.kind])
  · have hi : Instr.brk.kind ∈ [Kind.brk] := List.mem_cons_self
    obtain ⟨hsteps, hfault, -⟩ := exec_run_state h
    exact ⟨exec_sameRegs h hi (by decide), exec_sameFlagsBut h hi (by decide), exec_sameMemory h hi (by decide),
      hsteps, hfault⟩

end Sys2Proof.Proofs.Frames
end

section
/-! One step of the run loop (30_encoding.md R97 to R102, 60_exceptions.md R269): everything a step of a RUNNING core can be,
said once, and from it what a step keeps, where it halts and what it may change. -/

namespace Sys2Proof.Proofs.Step

open Sys2Proof.Machine Sys2Proof.Safety Sys2Proof.Proofs.OpcodeModes Sys2Proof.Proofs.Frames
open Sys2Proof.Proofs.FlagEffects (oneFlagOf_putFlag)
open Sys2Proof.Proofs.Completion (exec_brk)

/-! ### What a step answers -/

theorem stepInstr_of_lt {s : State} (hpc : s.pc.toNat < Config.memSize) :
    stepInstr s = finishStep s (exec (fetched s) s.enter) := by
  rw [stepInstr, fetchOpcode_ok.2 ⟨hpc, rfl⟩]
  rfl

/-- The executor of a decoded instruction faults at 0xFFFF alone, the table leaving no usage error. -/
theorem exec_fetched_fault {s : State} {f : Fault} (h : exec (fetched s) s.enter = .fault f) :
    f = .memoryBounds 0xFFFF s.pc := by
  rcases exec_fault h with hb | ⟨-, -, hu⟩
  · rw [hb, State.ia, State.enter_pc, BitVec.add_sub_cancel]
    rfl
  · rw [hu] at h
    exact absurd h (exec_decodeOpcode_ne_usageError _ _ _ _)

/-- A step of a RUNNING core takes the bounds fault at 0xFFFF, or counts what the executor of the fetched instruction
answers. -/
theorem step_next_cases {s t : State} (hrs : s.rs = .running) (h : step s = .next t) :
    t = s.takeFault (.memoryBounds 0xFFFF s.pc) ∨
      (s.pc.toNat < Config.memSize ∧ ∃ u, exec (fetched s) s.enter = .next u ∧ u.countStep = t) := by
  rw [step_of_running hrs] at h
  rcases stepInstr_next.1 h with ⟨hpc, ht⟩ | ⟨hpc, hfin⟩
  · exact .inl (ht.symm.trans (congrArg (fun a => s.takeFault (.memoryBounds a s.pc)) hpc))
  · rcases finishStep_next.1 hfin with ⟨u, hu, ht⟩ | ⟨f, hf, ht⟩
    · exact .inr ⟨hpc, u, hu, ht⟩
    · exact .inl (by rw [← ht, exec_fetched_fault hf])

/-- What the executor leaves the run state at. -/
theorem exec_rs_of_running {i : Instr} {s u : State} (hrs : s.rs = .running) (h : exec i s.enter = .next u) :
    u.rs = .running ∨ (i = .brk ∧ u.rs = .halted) := by
  obtain ⟨-, -, hu⟩ := exec_run_state h
  exact hu.imp_left fun he => he.trans hrs

/-! ### BRK -/

/-- BRK has one opcode byte (R244). -/
theorem decodeOpcode_eq_brk {op : Byte} : decodeOpcode op = .brk ↔ op = 0x00#8 := by
  constructor
  · intro h
    have hop := Encoding.opcode_decodeOpcode op
    rw [h] at hop
    exact (Option.some.inj hop).symm
  · rintro rfl
    rfl

/-- The step that executes BRK. -/
theorem stepInstr_of_fetched_brk {s : State} (hpc : s.pc.toNat < Config.memSize) (hbrk : fetched s = .brk) :
    stepInstr s = .next
      { s with p := putFlag .b true s.p, pc := s.pc + 1, rs := .halted, steps := s.steps.map (· + 1) } := by
  rw [stepInstr_of_lt hpc, hbrk, exec_brk]
  rfl

/-- A step of a RUNNING core executes BRK, or ends RUNNING or FAULTED. -/
theorem step_halts_cases {s t : State} (hrs : s.rs = .running) (h : step s = .next t) :
    (s.pc.toNat < Config.memSize ∧ fetched s = .brk) ∨ t.rs = .running ∨ t.rs = .faulted := by
  rcases step_next_cases hrs h with rfl | ⟨hpc, u, hu, rfl⟩
  · exact .inr (.inr rfl)
  · rcases exec_rs_of_running hrs hu with hr | ⟨hbrk, -⟩
    · exact .inr (.inl hr)
    · exact .inl ⟨hpc, hbrk⟩

/-! ### The statements on faults, halting and the step itself -/

/-- Settles O10: of the two answers of a step the executor's is never FAULTED. -/
theorem faultingStepKeepsNoWrite : Obligations.FaultingStepKeepsNoWrite := by
  intro s t hrs h hf
  rcases step_next_cases hrs h with ht | ⟨-, u, hu, rfl⟩
  · exact ht
  · rw [State.countStep_rs] at hf
    rcases exec_rs_of_running hrs hu with hr | ⟨-, hr⟩
    · cases hr.symm.trans hf
    · cases hr.symm.trans hf

/-- Settles O11: BRK's step is known whole, and every other ends RUNNING or FAULTED. -/
theorem onlyBrkHalts : Obligations.OnlyBrkHalts := by
  intro s t hrs h
  have hzero : fetched s = .brk ↔ s.mem.read s.pc.toNat = 0x00 := decodeOpcode_eq_brk
  rcases step_halts_cases hrs h with ⟨hpc, hbrk⟩ | hr
  · have ht := h.symm.trans ((step_of_running hrs).trans (stepInstr_of_fetched_brk hpc hbrk))
    cases ht
    exact ⟨⟨fun _ => ⟨hpc, hzero.1 hbrk⟩, fun _ => rfl⟩, fun _ => ⟨_, oneFlagOf_putFlag _ _ _, rfl⟩, .inr (.inl rfl)⟩
  · have hnot : t.rs ≠ .halted := by
      rcases hr with hr | hr <;> rw [hr] <;> decide
    refine ⟨⟨fun hh => absurd hh hnot, fun ⟨hpc, hread⟩ => ?_⟩, fun hh => absurd hh hnot, hr.imp_right .inr⟩
    cases h.symm.trans ((step_of_running hrs).trans (stepInstr_of_fetched_brk hpc (hzero.2 hread)))
    rfl

/-- Settles O7: a core that is not RUNNING keeps its state, and no executor refuses. -/
theorem everyStepAnswersNextState : Obligations.EveryStepAnswersNextState := by
  intro s
  by_cases hrs : s.rs = .running
  · rw [step_of_running hrs, stepInstr]
    cases fetchOpcode s with
    | error f => exact ⟨_, rfl⟩
    | ok op =>
      cases h : exec (decodeOpcode op) s.enter with
      | next u => exact ⟨_, congrArg (finishStep s) h⟩
      | fault f => exact ⟨_, congrArg (finishStep s) h⟩
      | refused r => exact absurd h (exec_not_refused _ _ r)
  · exact ⟨s, step_of_not_running hrs⟩

/-- Settles O6: the decoder at PC reads the byte that the fetch reads. -/
theorem stepRunsTheDecodedInstruction : Obligations.StepRunsTheDecodedInstruction := by
  intro s i operands rest hrs hpc h
  obtain ⟨hi, -, -⟩ := Encoding.decode_cons_ok.1 h
  rw [step_of_running hrs, stepInstr_of_lt hpc, show fetched s = i from hi]
  rfl

/-- Settles O8: the model's own law of a step that is not taken. -/
theorem onlyARunningCoreExecutes : Obligations.OnlyARunningCoreExecutes := fun _ => step_of_not_running

/-- Settles O9: the bound is tested before the step, on a counter that exists. -/
theorem stepBoundStopsBeforeTheNextInstruction : Obligations.StepBoundStopsBeforeTheNextInstruction := by
  intro s n hrs
  refine ⟨fun hn => ?_, fun hn => ?_, ?_, step_of_running hrs⟩
  · simp [stepWith, hrs, boundReached, hn, State.setRS]
  · simp [stepWith, hrs, boundReached, hn]
  · simp [stepWith, hrs, boundReached]

/-! ### The invariant -/

theorem inv_takeFault {s : State} (h : Inv s) (f : Fault) : Inv (s.takeFault f) := by
  obtain ⟨hmem, -, hsteps⟩ := h
  exact ⟨hmem, by simp, hsteps⟩

/-- A state of the invariant that is not FAULTED has no fault recorded. -/
theorem inv_fault_isSome {s : State} (h : Inv s) (hrs : s.rs ≠ .faulted) : ¬ s.fault.isSome = true := by
  obtain ⟨-, hfault, -⟩ := h
  exact fun hf => hrs (hfault.2 hf)

/-- Settles O12: the executor keeps the canonical form and the record, and counting keeps whether the counter exists. -/
theorem invariantKeptByEveryStep : Obligations.InvariantKeptByEveryStep := by
  intro s t hinv h
  by_cases hrs : s.rs = .running
  · rcases step_next_cases hrs h with rfl | ⟨-, u, hu, rfl⟩
    · exact inv_takeFault hinv _
    · have hnone : ¬ s.fault.isSome = true := inv_fault_isSome hinv (by simp [hrs])
      have hne : u.rs ≠ .faulted := by
        rcases exec_rs_of_running hrs hu with hr | ⟨-, hr⟩ <;> simp [hr]
      obtain ⟨hsteps, hfault, -⟩ := exec_run_state hu
      obtain ⟨hmem, -, hcount⟩ := hinv
      have hwf : u.mem.wf = true := exec_keeps_wf hu hmem
      refine ⟨hwf, ?_, ?_⟩
      · simp [hne, hfault, hnone]
      · simp [hsteps, hcount]
  · rw [step_of_not_running hrs] at h
    cases h
    exact hinv

/-! ### Who writes what -/

/-- Where a step changes anything that a fault leaves alone, the core was RUNNING and the fetched instruction's executor
changed it. -/
theorem step_changed {α : Type} {s t : State} {g : State → α} (hfault : ∀ f, g (s.takeFault f) = g s) (h : step s = .next t)
    (hne : g t ≠ g s) : s.rs = .running ∧ ∃ u, exec (fetched s) s.enter = .next u ∧ u.countStep = t := by
  by_cases hrs : s.rs = .running
  · rcases step_next_cases hrs h with rfl | ⟨-, hu⟩
    · exact absurd (hfault _) hne
    · exact ⟨hrs, hu⟩
  · rw [step_of_not_running hrs] at h
    cases h
    exact absurd rfl hne

/-- CLI and CLD only clear their flag, and BRK only sets B. -/
theorem exec_one_way {i : Instr} {s t : State} (h : exec i s = .next t) :
    (i.kind = .cli → t.flag .i = false) ∧ (i.kind = .cld → t.flag .d = false) ∧ (i.kind = .brk → t.flag .b = true) := by
  refine ⟨fun hk => ?_, fun hk => ?_, fun hk => ?_⟩
  · obtain rfl : i = .cli := by cases i <;> cases hk; rfl
    cases h
    exact getFlag_putFlag_same .i false s.p
  · obtain rfl : i = .cld := by cases i <;> cases hk; rfl
    cases h
    exact getFlag_putFlag_same .d false s.p
  · obtain rfl : i = .brk := by cases i <;> cases hk; rfl
    cases h
    exact getFlag_putFlag_same .b true s.p

/-- Settles O15: a step's change of a flag is its executor's, which is one of the flag's writers. -/
theorem flagsChangeOnlyByTheirWriters : Obligations.FlagsChangeOnlyByTheirWriters := by
  intro s t f h hne
  obtain ⟨hrs, u, hu, rfl⟩ := step_changed (g := fun r => r.flag f) (fun _ => rfl) h hne
  have hw : (fetched s).kind ∈ flagWriters f := by
    by_contra hk
    exact hne (exec_keeps_flag (s := s.enter) (t := u) hu hk)
  obtain ⟨hi, hd, hb⟩ := exec_one_way hu
  refine ⟨hrs, hw, ?_, ?_, ?_, ?_⟩ <;> rintro rfl
  · cases hw
  · exact hi (List.mem_singleton.1 hw)
  · exact hd (List.mem_singleton.1 hw)
  · exact hb (List.mem_singleton.1 hw)

/-- ASL on the accumulator leaves memory alone; every other executor that changes it has an address. -/
theorem exec_mem_writers {i : Instr} {s t : State} (h : exec i s = .next t) (hne : t.mem ≠ s.mem) :
    i.kind ∈ [Kind.sta, .inc, .dec] ∨ (i.kind = .asl ∧ i ≠ .asl .accumulator) := by
  rcases exec_memory h with he | ⟨a, -, -, ha, hk⟩
  · exact absurd he hne
  · have hacc : i ≠ .asl .accumulator := by
      rintro rfl
      cases ha
    rcases hk with hk | hk | hk | hk
    · exact .inl (by simp [hk])
    · exact .inl (by simp [hk])
    · exact .inl (by simp [hk])
    · exact .inr ⟨hk, hacc⟩

/-- Settles O16: a step's change of a register or of memory is its executor's, which is one of its writers. -/
theorem registersAndMemoryChangeOnlyByTheirWriters : Obligations.RegistersAndMemoryChangeOnlyByTheirWriters := by
  refine fun s t h => ⟨fun hne => ?_, fun hne => ?_, fun hne => ?_, fun hne => ?_⟩
  · obtain ⟨-, u, hu, rfl⟩ := step_changed (g := State.a) (fun _ => rfl) h hne
    obtain ⟨ha, -, -⟩ := exec_registers hu
    exact ha.resolve_left hne
  · obtain ⟨-, u, hu, rfl⟩ := step_changed (g := State.x) (fun _ => rfl) h hne
    obtain ⟨-, hx, -⟩ := exec_registers hu
    exact hx.resolve_left hne
  · obtain ⟨-, u, hu, rfl⟩ := step_changed (g := State.y) (fun _ => rfl) h hne
    obtain ⟨-, -, hy⟩ := exec_registers hu
    exact hy.resolve_left hne
  · obtain ⟨-, u, hu, rfl⟩ := step_changed (g := State.mem) (fun _ => rfl) h hne
    exact exec_mem_writers hu hne

end Sys2Proof.Proofs.Step
end

section
/-! I and D affect nothing (10_state.md R31): two runs of one instruction from states that differ in those flags alone answer
alike, because every executor reads P through its other flags. -/

namespace Sys2Proof.Proofs.Noninterference

open Sys2Proof.Machine Sys2Proof.Safety Sys2Proof.Proofs.FlagEffects

/-! ### Alike status bytes, states and outcomes -/

/-- Two status bytes alike in every flag but I and D. -/
def AlikeFlags (p q : Byte) : Prop := ∀ f, f ∉ [Flag.i, .d] → getFlag f q = getFlag f p

/-- Two outcomes alike: states alike but for I and D, the same fault, or the same refusal. -/
def AlikeOutcomes : Host.Outcome State Fault Refusal → Host.Outcome State Fault Refusal → Prop
  | .next t, .next t' => AlikeButID t t'
  | .fault f, .fault f' => f = f'
  | .refused r, .refused r' => r = r'
  | _, _ => False

/-- States alike but for I and D are one state with two status bytes. -/
theorem alikeButID_iff {s s' : State} : AlikeButID s s' ↔ ∃ q, AlikeFlags s.p q ∧ s' = s.setP q := by
  constructor
  · rintro ⟨⟨ha, hx, hy⟩, hpc, hmem, ⟨hrs, hsteps, hfault⟩, hflags⟩
    refine ⟨s'.p, hflags, ?_⟩
    cases s'
    simp only [State.setP, State.mk.injEq, true_and]
    exact ⟨ha, hx, hy, hpc, hmem, hrs, hsteps, hfault⟩
  · rintro ⟨q, hq, rfl⟩
    exact ⟨⟨rfl, rfl, rfl⟩, rfl, rfl, ⟨rfl, rfl, rfl⟩, hq⟩

theorem alikeButID_of_flags {t t' : State} (h : AlikeFlags t.p t'.p) (ht : t' = t.setP t'.p) : AlikeButID t t' :=
  alikeButID_iff.2 ⟨t'.p, h, ht⟩

/-! ### The flag computations -/

/-- A write of one flag from the same value. -/
theorem AlikeFlags.putFlag {p q : Byte} (h : AlikeFlags p q) (f : Flag) (on : Bool) :
    AlikeFlags (putFlag f on p) (putFlag f on q) := by
  intro g hg
  by_cases he : g = f
  · rw [he, getFlag_putFlag_same, getFlag_putFlag_same]
  · rw [getFlag_putFlag_other he, getFlag_putFlag_other he, h g hg]

theorem AlikeFlags.setZN {p q : Byte} (h : AlikeFlags p q) (v : Byte) : AlikeFlags (setZN v p) (setZN v q) :=
  (h.putFlag .z _).putFlag .n _

theorem AlikeFlags.compareFlags {p q : Byte} (h : AlikeFlags p q) (r v : Byte) :
    AlikeFlags (compareFlags r v p) (compareFlags r v q) :=
  (h.putFlag .c _).setZN _

theorem AlikeFlags.bitFlags {p q : Byte} (h : AlikeFlags p q) (a v : Byte) :
    AlikeFlags (bitFlags a v p) (bitFlags a v q) :=
  ((h.putFlag .z _).putFlag .n _).putFlag .v _

theorem AlikeFlags.aslFlags {p q : Byte} (h : AlikeFlags p q) (v : Byte) : AlikeFlags (aslFlags v p) (aslFlags v q) :=
  (h.putFlag .c _).setZN _

/-! ### The shapes of executors -/

/-- The resolver does not read P. -/
theorem resolveAddr_setP (k : Kind) (m : Mode) (s : State) (q : Byte) : resolveAddr k m (s.setP q) = resolveAddr k m s := by
  cases m <;> rfl

theorem readOperand_setP (k : Kind) (m : Mode) (s : State) (q : Byte) : readOperand k m (s.setP q) = readOperand k m s := by
  cases m <;> rfl

theorem onOperand_alike {k : Kind} {m : Mode} {s : State} {q : Byte} {f f' : Byte → State}
    (h : ∀ v, AlikeButID ((f v).advance m) ((f' v).advance m)) :
    AlikeOutcomes (onOperand k m s f) (onOperand k m (s.setP q) f') := by
  unfold onOperand
  rw [readOperand_setP]
  cases readOperand k m s with
  | error e => exact rfl
  | ok v => exact h v

/-- An executor that writes P alone. -/
theorem onOperand_setP_alike {k : Kind} {m : Mode} {s : State} {q : Byte} {g g' : Byte → Byte}
    (h : ∀ v, AlikeFlags (g v) (g' v)) :
    AlikeOutcomes (onOperand k m s fun v => s.setP (g v)) (onOperand k m (s.setP q) fun v => (s.setP q).setP (g' v)) :=
  onOperand_alike fun v => alikeButID_of_flags (h v) rfl

theorem storeOperand_alike {k : Kind} {m : Mode} {s : State} {q v : Byte} (hq : AlikeFlags s.p q) :
    AlikeOutcomes (storeOperand k m s v) (storeOperand k m (s.setP q) v) := by
  unfold storeOperand memWrite
  rw [resolveAddr_setP]
  cases resolveAddr k m s with
  | error e => exact rfl
  | ok a =>
    dsimp only [State.setP_mem]
    cases inBounds a with
    | false => exact rfl
    | true => exact alikeButID_of_flags hq rfl

theorem modifyOperand_alike {k : Kind} {m : Mode} {s : State} {q : Byte} {f : Byte → Byte} {g : Byte → Byte → Byte}
    (hg : ∀ v, AlikeFlags (g v s.p) (g v q)) : AlikeOutcomes (modifyOperand k m s f g) (modifyOperand k m (s.setP q) f g) := by
  unfold modifyOperand memRead memReadBy memWrite
  rw [resolveAddr_setP]
  cases resolveAddr k m s with
  | error e => exact rfl
  | ok a =>
    dsimp only [State.setP_mem]
    cases inBounds a with
    | false => exact rfl
    | true => exact alikeButID_of_flags (hg _) rfl

theorem branch_alike {c c' : Bool} {s : State} {q : Byte} (hq : AlikeFlags s.p q) (hc : c' = c) :
    AlikeOutcomes (branch c s) (branch c' (s.setP q)) := by
  rw [hc]
  unfold branch memRead memReadBy
  cases c with
  | false => exact alikeButID_of_flags hq rfl
  | true =>
    cases h : inBounds s.pc <;> simp only [h, State.setP_pc]
    · exact rfl
    · exact alikeButID_of_flags hq rfl

/-! ### Every executor, and the step -/

theorem exec_alike (i : Instr) {s : State} {q : Byte} (hq : AlikeFlags s.p q) :
    AlikeOutcomes (exec i s) (exec i (s.setP q)) := by
  cases i with
  | lda m | ldx m | ldy m | and m | eor m => exact onOperand_alike fun v => alikeButID_of_flags (hq.setZN _) rfl
  | cmp m | cpx m | cpy m => exact onOperand_setP_alike fun v => hq.compareFlags _ _
  | bit m => exact onOperand_setP_alike fun v => hq.bitFlags _ _
  | sta m => exact storeOperand_alike hq
  | inc m | dec m => exact modifyOperand_alike fun v => hq.setZN _
  | asl m =>
    by_cases hm : m = .accumulator
    · subst hm
      rw [exec, exec, execAsl_acc, execAsl_acc]
      exact alikeButID_of_flags (hq.aslFlags _) rfl
    · rw [exec, exec, execAsl_memory hm, execAsl_memory hm]
      exact modifyOperand_alike fun v => hq.aslFlags v
  | tax | tay | inx | iny | dex | dey => exact alikeButID_of_flags (hq.setZN _) rfl
  | bcc => exact branch_alike hq (congrArg not (hq .c (by decide)))
  | bcs => exact branch_alike hq (hq .c (by decide))
  | beq => exact branch_alike hq (hq .z (by decide))
  | bne => exact branch_alike hq (congrArg not (hq .z (by decide)))
  | bmi => exact branch_alike hq (hq .n (by decide))
  | bpl => exact branch_alike hq (congrArg not (hq .n (by decide)))
  | bvc => exact branch_alike hq (congrArg not (hq .v (by decide)))
  | bvs => exact branch_alike hq (hq .v (by decide))
  | clc | cld | cli | clv | brk => exact alikeButID_of_flags (hq.putFlag _ _) rfl
  | noneOp op => exact alikeButID_of_flags hq rfl

theorem finishStep_alike {s : State} {q : Byte} {o o' : Host.Outcome State Fault Refusal} (hq : AlikeFlags s.p q)
    (h : AlikeOutcomes o o') : AlikeOutcomes (finishStep s o) (finishStep (s.setP q) o') := by
  cases o <;> cases o'
  case next.next t t' =>
    obtain ⟨q', hq', rfl⟩ := alikeButID_iff.1 h
    exact alikeButID_of_flags hq' rfl
  case fault.fault f f' =>
    cases h
    exact alikeButID_of_flags hq rfl
  case refused.refused => exact h
  all_goals exact False.elim h

theorem step_alike {s s' : State} (h : AlikeButID s s') : AlikeOutcomes (step s) (step s') := by
  obtain ⟨q, hq, rfl⟩ := alikeButID_iff.1 h
  by_cases hrs : s.rs = .running
  · rw [step_of_running hrs, step_of_running (s := s.setP q) hrs]
    unfold stepInstr fetchOpcode memReadBy
    cases hb : inBounds s.pc <;> simp only [hb, State.setP_pc]
    · exact alikeButID_of_flags hq rfl
    · exact finishStep_alike hq (exec_alike _ hq)
  · rw [step_of_not_running hrs, step_of_not_running (s := s.setP q) hrs]
    exact h

/-- Settles O17: the two steps are alike, and both are next states. -/
theorem interruptAndDecimalFlagsAffectNothing : Obligations.InterruptAndDecimalFlagsAffectNothing := by
  intro s s' t t' h ht ht'
  have halike := step_alike h
  rw [ht, ht'] at halike
  exact halike

end Sys2Proof.Proofs.Noninterference
end

section
/-! The host interface (70_reset_and_hazards.md R290 to R299): what load leaves in memory, what each operation answers where the
host may act, and that each keeps the invariant. -/

namespace Sys2Proof.Proofs.HostInterface

open Sys2Proof.Machine Sys2Proof.Safety
open Sys2Proof.Proofs.MemoryAccess (Memory.read_write_other)
open Sys2Proof.Proofs.MemoryResolver (toNat_word16)
open Sys2Proof.Proofs.Step (inv_takeFault inv_fault_isSome)

/-! ### Where the host may act -/

theorem hostMayAct_eq_false_iff {r : RunState} : r.hostMayAct = false ↔ r = .running ∨ r = .faulted := by
  cases r <;> decide

theorem hostMayAct_eq_true_iff {r : RunState} : r.hostMayAct = true ↔ r = .idle ∨ r = .halted ∨ r = .bounded := by
  cases r <;> decide

theorem ne_faulted_of_hostMayAct {r : RunState} (h : r.hostMayAct = true) : r ≠ .faulted := by
  rintro rfl
  cases h

theorem whenAllowed_of_mayAct {s : State} (h : s.rs.hostMayAct = true) (o : Host.Outcome State Fault Refusal) :
    whenAllowed s o = o := if_pos h

theorem whenAllowed_of_not_mayAct {s : State} (h : s.rs.hostMayAct = false) (o : Host.Outcome State Fault Refusal) :
    whenAllowed s o = .refused .hostNotAllowed := by
  simp [whenAllowed, h]

/-! ### Placing bytes -/

/-- Bytes placed below the top of memory are read at their places, and every other byte as before. -/
theorem read_placeBytes {m : Memory} {a : Addr} {bs : List Byte} (hw : m.wf = true)
    (hfit : a.toNat + bs.length ≤ Config.memSize) (j : Nat) :
    (placeBytes m a bs).read j = if a.toNat ≤ j then bs[j - a.toNat]?.getD (m.read j) else m.read j := by
  induction bs generalizing m a with
  | nil => simp [placeBytes]
  | cons b rest ih =>
    rw [List.length_cons] at hfit
    have ha : a.toNat < Config.memSize := by omega
    have hnext : (a + 1#16).toNat = a.toNat + 1 := by
      rw [Config.memSize] at ha
      bv_omega
    rw [placeBytes, if_pos ((inBounds_iff a).2 ha), ih (Memory.wf_write hw ha b) (by omega), hnext, Memory.read_write hw]
    rcases Nat.lt_trichotomy j a.toNat with hj | rfl | hj
    · rw [if_neg (by omega), if_neg (by omega), if_neg (by omega)]
    · rw [if_neg (by omega), if_pos rfl, if_pos (le_refl _), Nat.sub_self]
      rfl
    · have hsub : j - a.toNat = j - (a.toNat + 1) + 1 := by omega
      rw [if_pos (by omega), if_neg (by omega), if_pos (by omega), hsub, List.getElem?_cons_succ]

/-! ### load -/

/-- The vector's two bytes are those of 0x8000 (R296), written over what the program left there. -/
theorem loadedMemory_eq (m : Memory) (program : List Byte) :
    loadedMemory m program = placeBytes (placeBytes m 0x8000 program) 0xFFFC [0x00, 0x80] := rfl

section
variable {m : Memory} (hw : m.wf = true)
include hw

/-- The vector covers 0xFFFC and 0xFFFD, and nothing else. -/
theorem read_loadedMemory (program : List Byte) (j : Nat) : (loadedMemory m program).read j =
    if j = 0xFFFC then 0x00 else if j = 0xFFFD then 0x80 else (placeBytes m 0x8000 program).read j := by
  rw [loadedMemory_eq, read_placeBytes (Memory.wf_placeBytes hw _ _) (by decide)]
  change (if 0xFFFC ≤ j then _ else _) = _
  rcases Nat.lt_or_ge j 0xFFFC with hj | hj
  · rw [if_neg (by omega), if_neg (by omega), if_neg (by omega)]
  · rw [if_pos hj]
    obtain ⟨k, rfl⟩ := Nat.exists_eq_add_of_le hj
    rw [show 0xFFFC + k - (0xFFFC : Addr).toNat = k from Nat.add_sub_cancel_left ..]
    match k with
    | 0 => rfl
    | 1 => rfl
    | k + 2 => rw [if_neg (by omega), if_neg (by omega)]; rfl

theorem vectorValue_loadedMemory (program : List Byte) : vectorValue (loadedMemory m program) = 0x8000 := by
  have hlo : (loadedMemory m program).read Config.resetVector.toNat = 0x00 := read_loadedMemory hw program 0xFFFC
  have hhi : (loadedMemory m program).read (Config.resetVector + 1#16).toNat = 0x80 :=
    read_loadedMemory hw program 0xFFFD
  rw [vectorValue, hlo, hhi]
  rfl

variable {program : List Byte} (hfit : program.length ≤ 0x7FFF)
include hfit

/-- What the program leaves, where the vector is not. -/
theorem read_loadedMemory_other {j : Nat} (hlo : j ≠ 0xFFFC) (hhi : j ≠ 0xFFFD) : (loadedMemory m program).read j =
    if 0x8000 ≤ j then program[j - 0x8000]?.getD (m.read j) else m.read j := by
  have hcap : (0x8000#16).toNat + program.length ≤ Config.memSize := by
    change 0x8000 + program.length ≤ 0xFFFF
    omega
  rw [read_loadedMemory hw, if_neg hlo, if_neg hhi]
  exact read_placeBytes hw hcap j

theorem read_loadedMemory_program {k : Nat} (hk : k < program.length) (hlo : 0x8000 + k ≠ 0xFFFC)
    (hhi : 0x8000 + k ≠ 0xFFFD) : some ((loadedMemory m program).read (0x8000 + k)) = program[k]? := by
  rw [read_loadedMemory_other hw hfit hlo hhi, if_pos (by omega), Nat.add_sub_cancel_left, List.getElem?_eq_getElem hk]
  rfl

theorem read_loadedMemory_outside {j : Nat} (hlo : j ≠ 0xFFFC) (hhi : j ≠ 0xFFFD)
    (hj : j < 0x8000 ∨ 0x8000 + program.length ≤ j) : (loadedMemory m program).read j = m.read j := by
  rw [read_loadedMemory_other hw hfit hlo hhi]
  rcases hj with hj | hj
  · rw [if_neg (by omega)]
  · rw [if_pos (by omega), List.getElem?_eq_none (by omega)]
    rfl

end

/-- The capacity is 0x7FFF bytes (R297). -/
theorem loadState_of_fit {program : List Byte} (h : program.length ≤ 0x7FFF) (s : State) :
    loadState s program = s.setMem (loadedMemory s.mem program) := if_neg (Nat.not_lt.2 h)

theorem loadState_of_not_fit {program : List Byte} (h : 0x7FFF < program.length) (s : State) :
    loadState s program = s.takeFault (.loadCapacity program.length) := if_pos h

theorem hostLoad_of_fit {s : State} {program : List Byte} (hact : s.rs.hostMayAct = true) (h : program.length ≤ 0x7FFF) :
    hostLoad program s = .next (s.setMem (loadedMemory s.mem program)) := by
  rw [hostLoad, whenAllowed_of_mayAct hact, loadState_of_fit h]

theorem hostLoad_of_not_fit {s : State} {program : List Byte} (hact : s.rs.hostMayAct = true)
    (h : 0x7FFF < program.length) : hostLoad program s = .next (s.takeFault (.loadCapacity program.length)) := by
  rw [hostLoad, whenAllowed_of_mayAct hact, loadState_of_not_fit h]

/-! ### reset and run, one after the other -/

/-- `reset` zeroes the counter that `run` zeroes again. -/
theorem runState_resetState (s : State) : runState (resetState s) =
    { s with
      a := 0x00, x := 0x00, y := 0x00, p := 0x24, pc := vectorValue s.mem, rs := .running
      steps := s.steps.map fun _ => 0 } := by
  have hsteps : ((resetState s).steps.map fun _ => 0) = s.steps.map fun _ => 0 := by
    rw [resetState_steps, Option.map_map]
    rfl
  exact congrArg ((resetState s).setRS .running).setSteps hsteps

theorem hostReset_then_hostRun {s : State} (hact : s.rs.hostMayAct = true) :
    andThen (hostReset s) hostRun = .next (runState (resetState s)) :=
  andThen_next.2 ⟨resetState s, whenAllowed_of_mayAct hact _, whenAllowed_of_mayAct rfl _⟩

/-! ### The invariant -/

/-- What an operation that ends in no fault has to keep. -/
theorem inv_of_hostMayAct {s t : State} (h : Inv s) (hact : s.rs.hostMayAct = true)
    (hmem : s.mem.wf = true → t.mem.wf = true) (hrs : t.rs ≠ .faulted) (hfault : t.fault = s.fault) (hsteps : t.steps.isSome = s.steps.isSome) : Inv t := by
  have hnone := inv_fault_isSome h (ne_faulted_of_hostMayAct hact)
  obtain ⟨hw, -, hcount⟩ := h
  exact ⟨hmem hw, by simp [hrs, hfault, hnone], hsteps.trans hcount⟩

theorem inv_hostLoad {program : List Byte} {s t : State} (h : Inv s) (ht : hostLoad program s = .next t) : Inv t := by
  obtain ⟨hact, he⟩ := whenAllowed_next.1 ht
  cases he
  rcases Nat.lt_or_ge 0x7FFF program.length with hlen | hlen
  · rw [loadState_of_not_fit hlen]
    exact inv_takeFault h _
  · rw [loadState_of_fit hlen]
    exact inv_of_hostMayAct h hact (fun hw => Memory.wf_placeBytes (Memory.wf_placeBytes hw _ _) _ _)
      (ne_faulted_of_hostMayAct hact) rfl rfl

theorem inv_hostReset {s t : State} (h : Inv s) (ht : hostReset s = .next t) : Inv t := by
  obtain ⟨hact, he⟩ := whenAllowed_next.1 ht
  cases he
  exact inv_of_hostMayAct h hact id (by simp) rfl (by simp)

theorem inv_hostRun {s t : State} (h : Inv s) (ht : hostRun s = .next t) : Inv t := by
  obtain ⟨hact, he⟩ := whenAllowed_next.1 ht
  cases he
  exact inv_of_hostMayAct h hact id (by simp) rfl (by simp)

theorem inv_hostLoadAndRun {program : List Byte} {s t : State} (h : Inv s) (ht : hostLoadAndRun program s = .next t) :
    Inv t := by
  obtain ⟨u, hload, hu⟩ := andThen_next.1 ht
  have hinv := inv_hostLoad h hload
  split at hu
  · cases hu
    exact hinv
  · obtain ⟨v, hreset, hrun⟩ := andThen_next.1 hu
    exact inv_hostRun (inv_hostReset hinv hreset) hrun

theorem inv_hostWriteReg {r : HostReg} {v : Byte} {s t : State} (h : Inv s) (ht : hostWriteReg r v s = .next t) :
    Inv t := by
  obtain ⟨-, he⟩ := whenAllowed_next.1 ht
  cases he
  cases r <;> exact h

theorem inv_hostWriteMem {a : Addr} {v : Byte} {s t : State} (h : Inv s) (ht : hostWriteMem a v s = .next t) : Inv t := by
  obtain ⟨hact, he⟩ := whenAllowed_next.1 ht
  split at he
  · next ha =>
    cases he
    exact inv_of_hostMayAct h hact (fun hw => Memory.wf_write hw ((inBounds_iff a).1 ha) v)
      (ne_faulted_of_hostMayAct hact) rfl rfl
  · cases he

/-- Settles O14: one operation at a time. -/
theorem invariantKeptByHostOperations : Obligations.InvariantKeptByHostOperations := by
  intro o s t h ht
  cases o with
  | load program => exact inv_hostLoad h ht
  | reset => exact inv_hostReset h ht
  | run => exact inv_hostRun h ht
  | loadAndRun program => exact inv_hostLoadAndRun h ht
  | writeReg r v => exact inv_hostWriteReg h ht
  | writePC v =>
    obtain ⟨-, he⟩ := whenAllowed_next.1 ht
    cases he
    exact h
  | writeMem a v => exact inv_hostWriteMem h ht

/-- Settles O13: the three parts of the invariant evaluated on the two states. -/
theorem invariantHoldsAtReset : Obligations.InvariantHoldsAtReset :=
  ⟨⟨Memory.wf_reset, by decide, rfl⟩, ⟨Memory.wf_reset, by decide, rfl⟩⟩

/-! ### The statements on new, reset, load and run -/

/-- The flags of the reset byte 0x24 (R40). -/
theorem getFlag_reset (f : Flag) : getFlag f 0x24 = true ↔ f = .i ∨ f = .u := by
  cases f <;> decide

/-- The vector in the memory `new` leaves. -/
theorem vectorValue_nil : vectorValue [] = 0x0000 := rfl

/-- Under a bound `reset` gives back what `new` creates. -/
theorem hostReset_newWith (n : Nat) : hostReset (State.newWith (some n)) = .next (State.newWith (some n)) :=
  congrArg (fun pc => Host.Outcome.next ((State.newWith (some n)).setPC pc)) vectorValue_nil

/-- Settles O53: `new` and `reset` give one state on this hardware, whose fields are written out. -/
theorem resetStateIsAsTheSpecGives : Obligations.ResetStateIsAsTheSpecGives := by
  refine ⟨fun s hs => ?_, rfl, fun n => ⟨rfl, hostReset_newWith n⟩⟩
  have hsame : State.new = State.reset := rfl
  obtain rfl : s = State.reset := by simpa [hsame] using hs
  exact ⟨rfl, rfl, rfl, rfl, rfl, getFlag_reset, fun _ => rfl, rfl, rfl, rfl⟩

/-- Settles O54: the vector's value as a number. -/
theorem resetReadsTheVector : Obligations.ResetReadsTheVector :=
  fun s hact => ⟨vectorValue s.mem, toNat_word16 _ _, whenAllowed_of_mayAct hact _⟩

/-- Settles O56: the memory that load leaves, byte by byte. -/
theorem loadCopiesTheProgramThenTheVector : Obligations.LoadCopiesTheProgramThenTheVector := by
  refine fun s program hw hact => ⟨fun hfit => ?_, hostLoad_of_not_fit hact⟩
  exact ⟨_, hostLoad_of_fit hact hfit, read_loadedMemory hw program 0xFFFC, read_loadedMemory hw program 0xFFFD,
    fun _ hk => read_loadedMemory_program hw hfit hk, fun _ => read_loadedMemory_outside hw hfit⟩

/-- Settles O57: load leaves a state in which reset and then run are carried out, or one that is FAULTED. -/
theorem runStartsTheLoop : Obligations.RunStartsTheLoop := by
  refine fun s program hw hact => ⟨whenAllowed_of_mayAct hact _, fun hfit => ?_, fun hlen => ?_⟩
  · refine ⟨_, hostLoad_of_fit hact hfit, andThen_next.2 ⟨_, hostLoad_of_fit hact hfit, ?_⟩⟩
    have hthen := hostReset_then_hostRun (s := s.setMem (loadedMemory s.mem program)) hact
    refine (if_neg (ne_faulted_of_hostMayAct hact)).trans (hthen.trans ?_)
    rw [runState_resetState, State.setMem_mem, vectorValue_loadedMemory hw]
    rfl
  · exact andThen_next.2 ⟨_, hostLoad_of_not_fit hact hlen, if_pos rfl⟩

/-- Settles O59: `new` leaves the byte 0x00, which is BRK, at 0x0000; the counter at 0 is below any bound that is not 0. -/
theorem runAfterNewHaltsAtOnce : Obligations.RunAfterNewHaltsAtOnce := by
  refine ⟨⟨_, rfl, rfl⟩, fun n hn => ⟨runState (State.newWith (some n)), rfl, ?_⟩⟩
  have hcount : (runState (State.newWith (some n))).steps ≠ some n := fun h => hn (Option.some.inj h).symm
  obtain ⟨-, hbelow, -⟩ := Step.stepBoundStopsBeforeTheNextInstruction (runState (State.newWith (some n))) n rfl
  have hpc : (0x0000 : Addr) + 1 = 0x0001 := rfl
  have hp : putFlag .b true 0x24 = 0x34 := rfl
  rw [hbelow hcount, Step.stepInstr_of_fetched_brk (show (0x0000 : Addr).toNat < Config.memSize by decide) rfl]
  exact congrArg₂ (fun pc p => Host.Outcome.next
    { State.newWith (some n) with pc := pc, p := p, rs := .halted, steps := some 1 }) hpc hp

/-! ### The statement on refusals and direct access -/

theorem hostDo_of_not_mayAct {s : State} (h : s.rs.hostMayAct = false) (o : HostOp) :
    hostDo o s = .refused .hostNotAllowed := by
  cases o with
  | loadAndRun program => rw [hostDo, hostLoadAndRun, hostLoad, whenAllowed_of_not_mayAct h, andThen]
  | load program | reset | run | writeReg r v | writePC v | writeMem a v => exact whenAllowed_of_not_mayAct h _

theorem host_reads_of_not_mayAct {s : State} (h : s.rs.hostMayAct = false) :
    (∀ r, hostReadReg r s = .refused .hostNotAllowed) ∧ hostReadPC s = .refused .hostNotAllowed ∧
      ∀ a, hostReadMem a s = .refused .hostNotAllowed := by
  simp [hostReadReg, hostReadPC, hostReadMem, h]

theorem hostReadReg_of_mayAct {s : State} (h : s.rs.hostMayAct = true) (r : HostReg) : hostReadReg r s = .next (r.get s) :=
  if_pos h

/-- A byte of M is read and written directly. -/
theorem host_mem_of_lt {s : State} (h : s.rs.hostMayAct = true) {a : Addr} (ha : a.toNat < Config.memSize) (v : Byte) :
    hostReadMem a s = .next (s.mem.read a.toNat) ∧
      (s.mem.wf = true → ∃ mem, hostWriteMem a v s = .next { s with mem := mem } ∧
        mem.read a.toNat = v ∧ ∀ k, k ≠ a.toNat → mem.read k = s.mem.read k) := by
  have hb := (inBounds_iff a).2 ha
  refine ⟨by rw [hostReadMem, if_pos h, if_pos hb], fun hw => ⟨_, ?_, Memory.read_write_same _ _ v hw, fun k hk => ?_⟩⟩
  · rw [hostWriteMem, whenAllowed_of_mayAct h, if_pos hb]
    rfl
  · exact Memory.read_write_other hw hk v

/-- 0xFFFF names no byte of M. -/
theorem host_mem_of_ffff {s : State} (h : s.rs.hostMayAct = true) {a : Addr} (ha : a = 0xFFFF) (v : Byte) :
    hostReadMem a s = .refused (.noSuchByte a) ∧ hostWriteMem a v s = .refused (.noSuchByte a) := by
  have hb : ¬ inBounds a = true := by rw [(not_inBounds_iff a).2 ha]; decide
  exact ⟨by rw [hostReadMem, if_pos h, if_neg hb], by rw [hostWriteMem, whenAllowed_of_mayAct h, if_neg hb]⟩

/-- Settles O58: `whenAllowed` and the reads' own tests, under the two answers of `hostMayAct`. -/
theorem runningAndFaultedAdmitNoHostOperation : Obligations.RunningAndFaultedAdmitNoHostOperation := by
  refine fun s => ⟨fun hrs => ?_, fun hrs => step_of_not_running (by simp [hrs]), fun hrs => ?_⟩
  · have h := hostMayAct_eq_false_iff.2 hrs
    exact ⟨hostDo_of_not_mayAct h, host_reads_of_not_mayAct h⟩
  · have h := hostMayAct_eq_true_iff.2 hrs
    have hread := hostReadReg_of_mayAct h
    have hwrite := whenAllowed_of_mayAct h
    exact ⟨⟨hread .a, hread .x, hread .y, hread .p, if_pos h⟩,
      fun v => ⟨hwrite _, hwrite _, hwrite _, hwrite _⟩, fun v => hwrite _,
      fun a v => ⟨fun ha => host_mem_of_lt h ha v, fun ha => host_mem_of_ffff h ha v⟩⟩

end Sys2Proof.Proofs.HostInterface
end
